-- ==== Sys2Proof/Word.lean ====
section
/-! DEFINITION. The widths of this hardware: bytes of memory and registers, 16-bit words, nibble fields. -/

namespace Sys2Proof

/-- One byte: a memory cell, a general register, a timer, the stack pointer (R18, R24, R26, R36). -/
abbrev Byte := BitVec 8

/-- One 16-bit word: an instruction, `PC`, `I`, a stack slot, the keyboard mask (R21, R23, R25, R27, R50). -/
abbrev Word := BitVec 16

/-- One 4-bit field of an instruction word: the opcode class, `x`, `y` or `n` (R51). -/
abbrev Nibble := BitVec 4

/-- The number of a general register, `V0` to `VF`: the value of an `x` or `y` field (R18, R51). -/
abbrev Reg := BitVec 4

/-- The 12-bit address field `nnn` of an instruction word (R51). -/
abbrev Addr12 := BitVec 12

/-- `VF`, the register that some instructions also write as the flag (R19). -/
abbrev regF : Reg := 0xF

/-- `V0`, the register `Bnnn` reads (R78). -/
abbrev reg0 : Reg := 0x0

end Sys2Proof
end

