-- ==== Sys2Proof/Config.lean ====
section
/-! DEFINITION. What a build of the core fixes (the spec's named parameters, R7 and R8), the defaults the spec offers for
them, and the one free value of the model (R10). -/

namespace Sys2Proof

/-- A font table: 16 glyphs of 5 bytes (R38). -/
abbrev Font := Vector (Vector Byte 5) 16

/-- The parameters fixed when the core is built: the display size (R8) and the font (R7). The spec keeps them parameters
(R39: a model must keep FONT a parameter), so a state carries the build it runs on, no step and no driver operation changes
it, and a statement about every state is a statement about every build (log entry 2). -/
structure Build where
  /-- DISPLAY_W, the display's width in pixels (R8). -/
  displayW : Nat
  /-- DISPLAY_H, the display's height in pixels (R8). -/
  displayH : Nat
  /-- FONT: 16 glyphs of 5 bytes, glyph g at the addresses 5g to 5g + 4, its top row first (R7, R38). -/
  font : Font
  deriving DecidableEq, Repr

/-- DISPLAY_W / 8: the byte-columns of one display row (R29). -/
def Build.columns (b : Build) : Nat := b.displayW / 8

/-- How many bytes the display holds: DISPLAY_W * DISPLAY_H / 8 (R8, R28). -/
def Build.displayBytes (b : Build) : Nat := b.displayW * b.displayH / 8

namespace Config

/-- The conventional hexadecimal font, the default R39 offers.
PRESUMED (the spec marks it as general knowledge). Unsafe: see log entry 3. -/
def defaultFont : Font := #v[
  #v[0xF0, 0x90, 0x90, 0x90, 0xF0],  -- 0
  #v[0x20, 0x60, 0x20, 0x20, 0x70],  -- 1
  #v[0xF0, 0x10, 0xF0, 0x80, 0xF0],  -- 2
  #v[0xF0, 0x10, 0xF0, 0x10, 0xF0],  -- 3
  #v[0x90, 0x90, 0xF0, 0x10, 0x10],  -- 4
  #v[0xF0, 0x80, 0xF0, 0x10, 0xF0],  -- 5
  #v[0xF0, 0x80, 0xF0, 0x90, 0xF0],  -- 6
  #v[0xF0, 0x10, 0x20, 0x40, 0x40],  -- 7
  #v[0xF0, 0x90, 0xF0, 0x90, 0xF0],  -- 8
  #v[0xF0, 0x90, 0xF0, 0x10, 0xF0],  -- 9
  #v[0xF0, 0x90, 0xF0, 0x90, 0x90],  -- A
  #v[0xE0, 0x90, 0xE0, 0x90, 0xE0],  -- B
  #v[0xF0, 0x80, 0x80, 0x80, 0xF0],  -- C
  #v[0xE0, 0x90, 0x90, 0x90, 0xE0],  -- D
  #v[0xF0, 0x80, 0xF0, 0x80, 0xF0],  -- E
  #v[0xF0, 0x80, 0xF0, 0x80, 0x80]]  -- F

/-- The build `State.reset` runs on: 64 by 32 pixels and the conventional font, the defaults of R8 and R39.
DESIGN CHOICE. Unsafe for a claim about `State.reset` alone, which then says nothing of other builds: see log entry 2. -/
def defaultBuild : Build where
  displayW := 64
  displayH := 32
  font := defaultFont

/-- The draw `rnd` that a step receives, by the number of draws before it: an 8-bit input under no law (R10, R92).
A FREE VALUE: it has no body, so nothing can be proved of any draw. Safe: see log entry 1. -/
opaque rnd : Nat → Byte

end Config

end Sys2Proof
end

