-- ==== Sys2Proof/Syntax.lean ====
section
/-! DEFINITION. The instruction set as syntax: one constructor for each of the 34 rows of the opcode table (R2, R54). -/

namespace Sys2Proof

/-- The instructions, in the order of the table of R54. Operands have exactly the width of their field (R51, R53), so no
operand out of its field's range can be written. The words no row matches are no instruction (R56): the decoder rejects
them by name and the step gives them their (empty) effect. -/
inductive Instr where
  /-- `00E0`, `CLS` (R102). -/
  | cls
  /-- `00EE`, `RET` (R71). -/
  | ret
  /-- `1nnn`, `JP nnn` (R72). -/
  | jp (nnn : Addr12)
  /-- `2nnn`, `CALL nnn` (R73). -/
  | call (nnn : Addr12)
  /-- `3xkk`, `SE Vx, kk` (R74). -/
  | seImm (x : Reg) (kk : Byte)
  /-- `4xkk`, `SNE Vx, kk` (R75). -/
  | sneImm (x : Reg) (kk : Byte)
  /-- `5xy0`, `SE Vx, Vy` (R76). -/
  | seReg (x y : Reg)
  /-- `6xkk`, `LD Vx, kk` (R81). -/
  | ldImm (x : Reg) (kk : Byte)
  /-- `7xkk`, `ADD Vx, kk` (R82). -/
  | addImm (x : Reg) (kk : Byte)
  /-- `8xy0`, `LD Vx, Vy` (R83). -/
  | ldReg (x y : Reg)
  /-- `8xy1`, `OR Vx, Vy` (R84). -/
  | orReg (x y : Reg)
  /-- `8xy2`, `AND Vx, Vy` (R85). -/
  | andReg (x y : Reg)
  /-- `8xy3`, `XOR Vx, Vy` (R86). -/
  | xorReg (x y : Reg)
  /-- `8xy4`, `ADD Vx, Vy` (R87). -/
  | addReg (x y : Reg)
  /-- `8xy5`, `SUB Vx, Vy` (R88). -/
  | subReg (x y : Reg)
  /-- `8xy6`, `SHR Vx, Vy` (R89). -/
  | shr (x y : Reg)
  /-- `8xy7`, `SUBN Vx, Vy` (R90). -/
  | subn (x y : Reg)
  /-- `8xyE`, `SHL Vx, Vy` (R91). -/
  | shl (x y : Reg)
  /-- `9xy0`, `SNE Vx, Vy` (R77). -/
  | sneReg (x y : Reg)
  /-- `Annn`, `LD I, nnn` (R94). -/
  | ldI (nnn : Addr12)
  /-- `Bnnn`, `JP V0, nnn` (R78). -/
  | jpV0 (nnn : Addr12)
  /-- `Cxkk`, `RND Vx, kk` (R92). -/
  | rnd (x : Reg) (kk : Byte)
  /-- `Dxyn`, `DRW Vx, Vy, n` (R103). -/
  | drw (x y : Reg) (n : Nibble)
  /-- `Ex9E`, `SKP Vx` (R105). -/
  | skp (x : Reg)
  /-- `ExA1`, `SKNP Vx` (R106). -/
  | sknp (x : Reg)
  /-- `Fx07`, `LD Vx, DT` (R107). -/
  | ldVxDt (x : Reg)
  /-- `Fx0A`, `LD Vx, K` (R108). -/
  | ldVxKey (x : Reg)
  /-- `Fx15`, `LD DT, Vx` (R109). -/
  | ldDtVx (x : Reg)
  /-- `Fx18`, `LD ST, Vx` (R110). -/
  | ldStVx (x : Reg)
  /-- `Fx1E`, `ADD I, Vx` (R95). -/
  | addI (x : Reg)
  /-- `Fx29`, `LD F, Vx` (R96). -/
  | ldFont (x : Reg)
  /-- `Fx33`, `LD B, Vx` (R97). -/
  | ldBcd (x : Reg)
  /-- `Fx55`, `LD [I], Vx` (R98). -/
  | storeRegs (x : Reg)
  /-- `Fx65`, `LD Vx, [I]` (R99). -/
  | loadRegs (x : Reg)
  deriving DecidableEq, Repr

/-- One row of the opcode table of R54: a word `w` is the row's when `w &&& mask = fixed` (the table's `match` column). -/
structure OpcodeRow where
  /-- The table's `match` column: the values of the fixed bits, every other bit 0. -/
  fixed : Word
  /-- The table's `mask` column: 1 at every fixed bit. -/
  mask : Word
  deriving DecidableEq, Repr

/-- Whether the row matches the word: `(w & mask) == match` (R54). -/
def OpcodeRow.matchesWord (r : OpcodeRow) (w : Word) : Bool := w &&& r.mask == r.fixed

end Sys2Proof
end

