-- ==== Sys2Proof/WellFormed.lean ====
section
/-! DEFINITION. The checks on what is written down before the machine runs: a build's parameters (R8), a row of the opcode
table (R52, R54), an instruction's operands (R53). -/

namespace Sys2Proof

/-- R8: `DISPLAY_W mod 8 = 0`, `DISPLAY_W >= 8` and `DISPLAY_H >= 1`. -/
def Build.wellFormed (b : Build) : Bool :=
  b.displayW % 8 == 0 && decide (8 ≤ b.displayW) && decide (1 ≤ b.displayH)

/-- A row's `match` sets no bit outside its `mask`, and the `mask` fixes the opcode class, bits 15..12 (R52, R54). -/
def OpcodeRow.wellFormed (r : OpcodeRow) : Bool :=
  r.fixed &&& ~~~r.mask == 0 && r.mask &&& 0xF000 == 0xF000

/-- The operand ranges of R53: `x`, `y` and `n` are 0..15, `kk` is 0..255, `nnn` is 0..0xFFF. The operands' types are
exactly their fields' widths, so every instruction that can be written is well formed (`Instr.wellFormed_all` in
Laws/Encoding.lean): a term that this check refuses does not exist. -/
def Instr.wellFormed : Instr → Bool
  | .cls | .ret => true
  | .jp nnn | .call nnn | .ldI nnn | .jpV0 nnn => decide (nnn.toNat < 4096)
  | .seImm x kk | .sneImm x kk | .ldImm x kk | .addImm x kk | .rnd x kk =>
    decide (x.toNat < 16) && decide (kk.toNat < 256)
  | .seReg x y | .ldReg x y | .orReg x y | .andReg x y | .xorReg x y | .addReg x y | .subReg x y | .shr x y | .subn x y
  | .shl x y | .sneReg x y => decide (x.toNat < 16) && decide (y.toNat < 16)
  | .drw x y n => decide (x.toNat < 16) && decide (y.toNat < 16) && decide (n.toNat < 16)
  | .skp x | .sknp x | .ldVxDt x | .ldVxKey x | .ldDtVx x | .ldStVx x | .addI x | .ldFont x | .ldBcd x | .storeRegs x
  | .loadRegs x => decide (x.toNat < 16)

end Sys2Proof
end

