-- ==== Sys2Proof/Decode.lean ====
section
/-! DEFINITION. The decoder, total on any bytes and rejecting by name, and the encoder, both written from the tables of
R51, R52 and R54; the opcode table itself as data. -/

namespace Sys2Proof

/-! ## Fields (R51) -/

/-- The opcode class, `w[15:12]`. -/
def opClass (w : Word) : Nibble := w.extractLsb' 12 4

/-- `x`, `w[11:8]`. -/
def fieldX (w : Word) : Reg := w.extractLsb' 8 4

/-- `y`, `w[7:4]`. -/
def fieldY (w : Word) : Reg := w.extractLsb' 4 4

/-- `n`, `w[3:0]`. -/
def fieldN (w : Word) : Nibble := w.extractLsb' 0 4

/-- `kk`, `w[7:0]`. -/
def fieldKk (w : Word) : Byte := w.extractLsb' 0 8

/-- `nnn`, `w[11:0]`. -/
def fieldNnn (w : Word) : Addr12 := w.extractLsb' 0 12

/-! ## Decoding (R54, R55) -/

/-- Why bytes hold no instruction. -/
inductive DecodeError where
  /-- Fewer than the two bytes of an instruction word (R50). -/
  | truncated
  /-- A word that none of the 34 rows matches: it has no effect of its own and raises no error (R56, R57). -/
  | unmatched (w : Word)
  deriving DecidableEq, Repr

/-- Class 0 holds exactly two words (R55). -/
def decodeClass0 (w : Word) : Except DecodeError Instr :=
  if w = 0x00E0 then .ok .cls
  else if w = 0x00EE then .ok .ret
  else .error (.unmatched w)

/-- Class 8 holds nine instructions, selected by the low nibble (R55). -/
def decodeClass8 (w : Word) : Except DecodeError Instr :=
  match (fieldN w).toNat with
  | 0x0 => .ok (.ldReg (fieldX w) (fieldY w))
  | 0x1 => .ok (.orReg (fieldX w) (fieldY w))
  | 0x2 => .ok (.andReg (fieldX w) (fieldY w))
  | 0x3 => .ok (.xorReg (fieldX w) (fieldY w))
  | 0x4 => .ok (.addReg (fieldX w) (fieldY w))
  | 0x5 => .ok (.subReg (fieldX w) (fieldY w))
  | 0x6 => .ok (.shr (fieldX w) (fieldY w))
  | 0x7 => .ok (.subn (fieldX w) (fieldY w))
  | 0xE => .ok (.shl (fieldX w) (fieldY w))
  | _ => .error (.unmatched w)

/-- Class E holds two instructions, selected by the low byte (R55). -/
def decodeClassE (w : Word) : Except DecodeError Instr :=
  if fieldKk w = 0x9E then .ok (.skp (fieldX w))
  else if fieldKk w = 0xA1 then .ok (.sknp (fieldX w))
  else .error (.unmatched w)

/-- Class F holds nine instructions, selected by the low byte (R55). -/
def decodeClassF (w : Word) : Except DecodeError Instr :=
  if fieldKk w = 0x07 then .ok (.ldVxDt (fieldX w))
  else if fieldKk w = 0x0A then .ok (.ldVxKey (fieldX w))
  else if fieldKk w = 0x15 then .ok (.ldDtVx (fieldX w))
  else if fieldKk w = 0x18 then .ok (.ldStVx (fieldX w))
  else if fieldKk w = 0x1E then .ok (.addI (fieldX w))
  else if fieldKk w = 0x29 then .ok (.ldFont (fieldX w))
  else if fieldKk w = 0x33 then .ok (.ldBcd (fieldX w))
  else if fieldKk w = 0x55 then .ok (.storeRegs (fieldX w))
  else if fieldKk w = 0x65 then .ok (.loadRegs (fieldX w))
  else .error (.unmatched w)

/-- The instruction a word is, or the word itself as unmatched: the source's "two-level tagged-variant match (top nibble,
then sub-selector)" with every fixed bit compared (R54). The last arm is class F, the one class left. -/
def decodeWord (w : Word) : Except DecodeError Instr :=
  match (opClass w).toNat with
  | 0x0 => decodeClass0 w
  | 0x1 => .ok (.jp (fieldNnn w))
  | 0x2 => .ok (.call (fieldNnn w))
  | 0x3 => .ok (.seImm (fieldX w) (fieldKk w))
  | 0x4 => .ok (.sneImm (fieldX w) (fieldKk w))
  | 0x5 => if fieldN w = 0x0 then .ok (.seReg (fieldX w) (fieldY w)) else .error (.unmatched w)
  | 0x6 => .ok (.ldImm (fieldX w) (fieldKk w))
  | 0x7 => .ok (.addImm (fieldX w) (fieldKk w))
  | 0x8 => decodeClass8 w
  | 0x9 => if fieldN w = 0x0 then .ok (.sneReg (fieldX w) (fieldY w)) else .error (.unmatched w)
  | 0xA => .ok (.ldI (fieldNnn w))
  | 0xB => .ok (.jpV0 (fieldNnn w))
  | 0xC => .ok (.rnd (fieldX w) (fieldKk w))
  | 0xD => .ok (.drw (fieldX w) (fieldY w) (fieldN w))
  | 0xE => decodeClassE w
  | _ => decodeClassF w

/-- The word of two bytes as memory holds them: the first is bits 15..8 (R42, R50). -/
def wordOfBytes (hi lo : Byte) : Word := hi ++ lo

/-- The two bytes of a word in memory order, high byte first (R42). -/
def bytesOfWord (w : Word) : List Byte := [w.extractLsb' 8 8, w.extractLsb' 0 8]

/-- Decodes the instruction at the head of any bytes, and gives the bytes after it: every instruction is two bytes (R50). -/
def decodeBytes : List Byte → Except DecodeError (Instr × List Byte)
  | hi :: lo :: rest => (decodeWord (wordOfBytes hi lo)).map fun i => (i, rest)
  | _ => .error .truncated

/-- The instruction this decoder reads from an instruction whose bits are `w`, numbered as spec/opcode_table.json numbers
them: one 16-bit word, bit 0 its least significant bit, laid out in memory high byte first (R42, R50). -/
def decodeTableWord (nbits w : Nat) : Option Instr :=
  match decodeBytes (bytesOfWord (BitVec.ofNat 16 (w % 2 ^ nbits))) with
  | .ok (i, _) => some i
  | .error _ => none

/-! ## Encoding (R52, R54) -/

/-- Format A: class, then `nnn`. -/
def formatA (c : Nibble) (nnn : Addr12) : Word := c ++ nnn

/-- Format XK: class, `x`, then `kk`. -/
def formatXK (c : Nibble) (x : Reg) (kk : Byte) : Word := c ++ x ++ kk

/-- Formats XY and XYN: class, `x`, `y`, then the low nibble. -/
def formatXYN (c : Nibble) (x y : Reg) (n : Nibble) : Word := c ++ x ++ y ++ n

/-- The word of an instruction, from the rows of R54. -/
def encode : Instr → Word
  | .cls => 0x00E0
  | .ret => 0x00EE
  | .jp nnn => formatA 0x1 nnn
  | .call nnn => formatA 0x2 nnn
  | .seImm x kk => formatXK 0x3 x kk
  | .sneImm x kk => formatXK 0x4 x kk
  | .seReg x y => formatXYN 0x5 x y 0x0
  | .ldImm x kk => formatXK 0x6 x kk
  | .addImm x kk => formatXK 0x7 x kk
  | .ldReg x y => formatXYN 0x8 x y 0x0
  | .orReg x y => formatXYN 0x8 x y 0x1
  | .andReg x y => formatXYN 0x8 x y 0x2
  | .xorReg x y => formatXYN 0x8 x y 0x3
  | .addReg x y => formatXYN 0x8 x y 0x4
  | .subReg x y => formatXYN 0x8 x y 0x5
  | .shr x y => formatXYN 0x8 x y 0x6
  | .subn x y => formatXYN 0x8 x y 0x7
  | .shl x y => formatXYN 0x8 x y 0xE
  | .sneReg x y => formatXYN 0x9 x y 0x0
  | .ldI nnn => formatA 0xA nnn
  | .jpV0 nnn => formatA 0xB nnn
  | .rnd x kk => formatXK 0xC x kk
  | .drw x y n => formatXYN 0xD x y n
  | .skp x => formatXK 0xE x 0x9E
  | .sknp x => formatXK 0xE x 0xA1
  | .ldVxDt x => formatXK 0xF x 0x07
  | .ldVxKey x => formatXK 0xF x 0x0A
  | .ldDtVx x => formatXK 0xF x 0x15
  | .ldStVx x => formatXK 0xF x 0x18
  | .addI x => formatXK 0xF x 0x1E
  | .ldFont x => formatXK 0xF x 0x29
  | .ldBcd x => formatXK 0xF x 0x33
  | .storeRegs x => formatXK 0xF x 0x55
  | .loadRegs x => formatXK 0xF x 0x65

/-! ## The opcode table as data (R54) -/

/-- The row of R54 that an instruction belongs to. -/
def rowOf : Instr → OpcodeRow
  | .cls => ⟨0x00E0, 0xFFFF⟩
  | .ret => ⟨0x00EE, 0xFFFF⟩
  | .jp _ => ⟨0x1000, 0xF000⟩
  | .call _ => ⟨0x2000, 0xF000⟩
  | .seImm _ _ => ⟨0x3000, 0xF000⟩
  | .sneImm _ _ => ⟨0x4000, 0xF000⟩
  | .seReg _ _ => ⟨0x5000, 0xF00F⟩
  | .ldImm _ _ => ⟨0x6000, 0xF000⟩
  | .addImm _ _ => ⟨0x7000, 0xF000⟩
  | .ldReg _ _ => ⟨0x8000, 0xF00F⟩
  | .orReg _ _ => ⟨0x8001, 0xF00F⟩
  | .andReg _ _ => ⟨0x8002, 0xF00F⟩
  | .xorReg _ _ => ⟨0x8003, 0xF00F⟩
  | .addReg _ _ => ⟨0x8004, 0xF00F⟩
  | .subReg _ _ => ⟨0x8005, 0xF00F⟩
  | .shr _ _ => ⟨0x8006, 0xF00F⟩
  | .subn _ _ => ⟨0x8007, 0xF00F⟩
  | .shl _ _ => ⟨0x800E, 0xF00F⟩
  | .sneReg _ _ => ⟨0x9000, 0xF00F⟩
  | .ldI _ => ⟨0xA000, 0xF000⟩
  | .jpV0 _ => ⟨0xB000, 0xF000⟩
  | .rnd _ _ => ⟨0xC000, 0xF000⟩
  | .drw _ _ _ => ⟨0xD000, 0xF000⟩
  | .skp _ => ⟨0xE09E, 0xF0FF⟩
  | .sknp _ => ⟨0xE0A1, 0xF0FF⟩
  | .ldVxDt _ => ⟨0xF007, 0xF0FF⟩
  | .ldVxKey _ => ⟨0xF00A, 0xF0FF⟩
  | .ldDtVx _ => ⟨0xF015, 0xF0FF⟩
  | .ldStVx _ => ⟨0xF018, 0xF0FF⟩
  | .addI _ => ⟨0xF01E, 0xF0FF⟩
  | .ldFont _ => ⟨0xF029, 0xF0FF⟩
  | .ldBcd _ => ⟨0xF033, 0xF0FF⟩
  | .storeRegs _ => ⟨0xF055, 0xF0FF⟩
  | .loadRegs _ => ⟨0xF065, 0xF0FF⟩

/-- The 34 rows of R54, in the table's order. -/
def opcodeTable : List OpcodeRow := [
  ⟨0x00E0, 0xFFFF⟩, ⟨0x00EE, 0xFFFF⟩, ⟨0x1000, 0xF000⟩, ⟨0x2000, 0xF000⟩, ⟨0x3000, 0xF000⟩, ⟨0x4000, 0xF000⟩,
  ⟨0x5000, 0xF00F⟩, ⟨0x6000, 0xF000⟩, ⟨0x7000, 0xF000⟩, ⟨0x8000, 0xF00F⟩, ⟨0x8001, 0xF00F⟩, ⟨0x8002, 0xF00F⟩,
  ⟨0x8003, 0xF00F⟩, ⟨0x8004, 0xF00F⟩, ⟨0x8005, 0xF00F⟩, ⟨0x8006, 0xF00F⟩, ⟨0x8007, 0xF00F⟩, ⟨0x800E, 0xF00F⟩,
  ⟨0x9000, 0xF00F⟩, ⟨0xA000, 0xF000⟩, ⟨0xB000, 0xF000⟩, ⟨0xC000, 0xF000⟩, ⟨0xD000, 0xF000⟩, ⟨0xE09E, 0xF0FF⟩,
  ⟨0xE0A1, 0xF0FF⟩, ⟨0xF007, 0xF0FF⟩, ⟨0xF00A, 0xF0FF⟩, ⟨0xF015, 0xF0FF⟩, ⟨0xF018, 0xF0FF⟩, ⟨0xF01E, 0xF0FF⟩,
  ⟨0xF029, 0xF0FF⟩, ⟨0xF033, 0xF0FF⟩, ⟨0xF055, 0xF0FF⟩, ⟨0xF065, 0xF0FF⟩]

end Sys2Proof
end

