-- ==== Sys2Proof/Machine/State.lean ====
section
/-! DEFINITION. The machine's state as plain data, the reasons a step can stop, and the state after reset. -/

namespace Sys2Proof.Machine

/-- What a fault reports: its code and its info in one, one constructor per code of R124. -/
inductive Cause where
  /-- FETCH_OOB: the fetch at `pc` needs a byte at 4096 or above (R46, R61). -/
  | fetchOob (pc : Nat)
  /-- MEM_OOB: a data access; `address` is the first address of 4096 or more in access order (R46). -/
  | memOob (address : Nat)
  /-- STACK_OOB: an access to a stack slot whose index is 16 or more (R71, R73). -/
  | stackOob (index : Nat)
  /-- DISPLAY_OOB: a drawn row outside the display (R103). -/
  | displayOob (row column : Nat)
  deriving DecidableEq, Repr

/-- The code's value in the table of R124. -/
def Cause.code : Cause → Nat
  | .fetchOob _ => 1
  | .memOob _ => 2
  | .stackOob _ => 3
  | .displayOob _ _ => 4

/-- The fault record `faulted(code, pc, word, info)` of R31 and R126; the cause holds the code and the info. -/
structure FaultRecord where
  /-- What happened, with the offending address, index or display position. -/
  cause : Cause
  /-- The address of the instruction word whose step faulted. -/
  pc : Word
  /-- That word, or none when the fetch itself faulted. -/
  word : Option Word
  deriving DecidableEq, Repr

/-- Why the machine stops. -/
inductive Fault where
  /-- Raised by a meaning (`2nnn`, `00EE`, `Dxyn`, `Fx33`, `Fx55`, `Fx65`) on an access outside its array (R124). The step
  does not stop with it: it takes the fault, which sets the record and commits nothing else (R66, R126). Safe. -/
  | raised (cause : Cause)
  /-- Raised by `step` on a core that is already faulted: no step is taken, the record is kept and reported, until reset
  (R67, R127). Safe. -/
  | stopped (record : FaultRecord)
  deriving DecidableEq, Repr

/-- Why an instruction has no meaning in the model. -/
inductive Refusal where
  /-- Raised by an arm of `exec` for an instruction not modelled yet; no arm of this model does. Safe. -/
  | notModelled (mnemonic : String)
  deriving DecidableEq, Repr

/-- The architectural state (10_state.md), one record. -/
structure State where
  /-- `V[0]`..`V[15]`, the general registers; `V[15]` is VF, the flag (R18, R19). -/
  v : Vector Byte 16
  /-- `I`, the index register (R23). -/
  index : Word
  /-- `PC` (R21). -/
  pc : Word
  /-- `SP`: the slot of the last pushed frame; 0 means empty (R24). -/
  sp : Byte
  /-- `stack[0]`..`stack[15]` (R25). -/
  stack : Vector Word 16
  /-- `DT`, the delay timer (R26). -/
  dt : Byte
  /-- `ST`, the sound timer (R26). -/
  st : Byte
  /-- `KB`, the keyboard latch: bit k is set while key k is held (R27). -/
  kb : Word
  /-- `disp`, the display bytes, row after row (R28, R29). -/
  disp : List Byte
  /-- `ticks`, the non-faulting steps since reset (R9, R30). -/
  ticks : BitVec 64
  /-- `mem`: the bytes that differ from the reset contents, by rising address (R36; `Mem.wf` in Ops.lean). -/
  mem : List Host.Cell
  /-- The fault record; none while the core runs (R31). -/
  fault : Option FaultRecord
  /-- The parameters of the build this core is (R7, R8); nothing changes them. -/
  build : Build
  /-- THE MODEL'S OWN FIELD: how many draws of the random byte have been used (R10, log entry 1). -/
  draws : Nat
  deriving DecidableEq, Repr

/-- The state after reset of a core of the given build, `draws` draws of the random byte having been used (R34, R136).
Memory lists nothing: it holds its reset contents, FONT at 0 to 79 and 0 elsewhere. -/
def State.resetOf (build : Build) (draws : Nat) : State where
  v := Vector.replicate 16 0
  index := 0
  pc := 0x200
  sp := 0
  stack := Vector.replicate 16 0
  dt := 0
  st := 0
  kb := 0
  disp := List.replicate build.displayBytes 0
  ticks := 0
  mem := []
  fault := none
  build := build
  draws := draws

/-- The machine right after reset: the default build (log entries 2 and 3), no draw used yet (log entry 1). -/
def State.reset : State := State.resetOf Config.defaultBuild 0

end Sys2Proof.Machine
end

