-- ==== Sys2Proof/Machine/Ops.lean ====
section
/-! DEFINITION. The named operations over memory, registers, stack and display; the phases of a step around the
instruction; taking a fault. -/

namespace Sys2Proof.Machine

/-! ## Memory (20_memory.md) -/

/-- The number of bytes of memory, MEM_SIZE (R36). -/
def memSize : Nat := 4096

/-- What an unlisted address reads as: the reset contents, FONT at 0 to 79 and 0 above (R38, R40; log entry 10). -/
def Mem.unlisted (font : Font) (a : Nat) : Byte :=
  if h : a < 80 then (font[a / 5]'(by omega))[a % 5]'(by omega) else 0

/-- The byte at an address: the listed one, else the reset contents. -/
def Mem.read (font : Font) (m : List Host.Cell) (a : Nat) : Byte :=
  match m with
  | [] => Mem.unlisted font a
  | (b, w) :: rest => if a = b then w else Mem.read font rest a

/-- Inserts a cell before the first one with a greater address. -/
def Mem.insert (m : List Host.Cell) (a : Nat) (v : Byte) : List Host.Cell :=
  match m with
  | [] => [(a, v)]
  | (b, w) :: rest => if a < b then (a, v) :: (b, w) :: rest else (b, w) :: Mem.insert rest a v

/-- Stores a byte: the address's old entry goes, and the new one is listed unless it equals the reset contents, so that
equal memories are equal lists. -/
def Mem.write (font : Font) (m : List Host.Cell) (a : Nat) (v : Byte) : List Host.Cell :=
  let others := m.filter fun cell => cell.1 != a
  if v = Mem.unlisted font a then others else Mem.insert others a v

/-- The canonical form from an address on: strictly rising, below 4096, no entry equal to the reset contents. -/
def Mem.wfFrom (font : Font) (lo : Nat) (m : List Host.Cell) : Bool :=
  match m with
  | [] => true
  | (b, w) :: rest =>
    decide (lo ≤ b) && decide (b < memSize) && decide (w ≠ Mem.unlisted font b) && Mem.wfFrom font (b + 1) rest

/-- The canonical form of memory. -/
def Mem.wf (font : Font) (m : List Host.Cell) : Bool := Mem.wfFrom font 0 m

/-- `mem[a]`, the byte at an address (R14). A rule reads only below 4096, having checked its addresses first (R66; log
entry 9). -/
def State.byteAt (s : State) (a : Nat) : Byte := Mem.read s.build.font s.mem a

/-- `mem[a] <- v`, the store of one byte (R14). A rule writes only below 4096, having checked its addresses first (R66; log
entry 9). -/
def State.setByte (s : State) (a : Nat) (v : Byte) : State := { s with mem := Mem.write s.build.font s.mem a v }

/-- Whether the `count` bytes (at least one) from `base` on reach past memory: MEM_OOB with the first address of 4096 or
more (R46, R124). -/
def memFault? (base count : Nat) : Option Cause :=
  if base + count ≤ memSize then none else some (.memOob (max base memSize))

/-! ## Registers and the call stack (10_state.md) -/

/-- `V[x]` (R13). -/
def State.reg (s : State) (x : Reg) : Byte := s.v[x.toNat]'(x.isLt)

/-- `V[x] <- b` (R13). -/
def State.setReg (s : State) (x : Reg) (b : Byte) : State := { s with v := s.v.set x.toNat b x.isLt }

/-- `I <- w`. -/
def State.setIndex (s : State) (w : Word) : State := { s with index := w }

/-- `PC <- w`. -/
def State.setPc (s : State) (w : Word) : State := { s with pc := w }

/-- `SP <- b`. -/
def State.setSp (s : State) (b : Byte) : State := { s with sp := b }

/-- `DT <- b`. -/
def State.setDt (s : State) (b : Byte) : State := { s with dt := b }

/-- `ST <- b`. -/
def State.setSt (s : State) (b : Byte) : State := { s with st := b }

/-- `stack[j]` for j below 16 (R25); a rule reads a slot only after `stackFault?` (log entry 9). -/
def State.slot (s : State) (j : Nat) : Word := if h : j < 16 then s.stack[j] else 0

/-- `stack[j] <- w` for j below 16 (R25); a rule writes a slot only after `stackFault?` (log entry 9). -/
def State.setSlot (s : State) (j : Nat) (w : Word) : State := { s with stack := s.stack.setIfInBounds j w }

/-- Whether a slot index lies outside the array of 16: STACK_OOB with the index (R25, R124). -/
def stackFault? (j : Nat) : Option Cause := if j < 16 then none else some (.stackOob j)

/-! ## The display (R28, R29) -/

/-- `disp[b]` for b inside the display (log entry 9). -/
def State.dispByte (s : State) (b : Nat) : Byte := s.disp.getD b 0

/-- All of `disp` at once. -/
def State.setDisp (s : State) (d : List Byte) : State := { s with disp := d }

/-- `row * (DISPLAY_W / 8) + column`, the number of a display byte (R29). -/
def Build.cell (b : Build) (row column : Nat) : Nat := row * b.columns + column

/-! ## Outcomes -/

/-- What a meaning and a step answer. -/
abbrev Result := Host.Outcome State Fault Refusal

/-- `raise Fault(code, info)` (R15). -/
def raise (c : Cause) : Result := .fault (.raised c)

/-- Goes on only if the checks found no fault: a rule checks every access before it writes anything (R66). -/
def unlessFault (check : Option Cause) (go : Result) : Result :=
  match check with
  | some c => raise c
  | none => go

/-! ## The phases of a step around the instruction (40_cycle.md) -/

/-- The fetch: the word at `PC`, big-endian, or FETCH_OOB when `PC + 1 >= 4096`; `PC` may be odd (R42, R61). -/
def fetch (s : State) : Except Cause Word :=
  if s.pc.toNat + 1 < memSize then .ok (wordOfBytes (s.byteAt s.pc.toNat) (s.byteAt (s.pc.toNat + 1)))
  else .error (.fetchOob s.pc.toNat)

/-- The pre-advance, `PC <- trunc_16(PC + 2)` (R62). -/
def State.preAdvance (s : State) : State := s.setPc (s.pc + 2)

/-- `skip`: 2 more on the advanced PC (R15, R70). -/
def State.skip (s : State) : State := s.setPc (s.pc + 2)

/-- Skips when the condition holds (R70). -/
def State.skipIf (s : State) (condition : Bool) : State := if condition then s.skip else s

/-- One timer's countdown: by 1 toward zero, never below (R64). -/
def countDown (b : Byte) : Byte := if b ≠ 0 then b - 1 else b

/-- The end of a step that did not fault: both timers count down, the step is counted (R30, R60, R64), and the step's draw
of the random byte is used up (R10, log entry 1). -/
def State.endStep (s : State) : State :=
  { s with dt := countDown s.dt, st := countDown s.st, ticks := s.ticks + 1, draws := s.draws + 1 }

/-- TAKING A FAULT: `fault <- faulted(code, pc0, w, info)`; nothing else changes, so PC still holds pc0, the address the
step fetched from (R66, R126). It is applied to the state before the step. There is no return from it but reset (R127). -/
def State.takeFault (s : State) (word : Option Word) (c : Cause) : State :=
  { s with fault := some ⟨c, s.pc, word⟩ }

/-- A step request on a faulted core: no step is taken and the stored fault is reported (R67; `refuse` in
93_implementation_defined.md, U27; log entry 4). -/
def stoppedStep (record : FaultRecord) : Result := .fault (.stopped record)

/-- A word no row matches: no effect of its own, no trap, no error (R56, R57). -/
def execUnmatched (s : State) : Result := .next s

/-- Stores a word where the next fetch reads it, high byte first (R42). -/
def State.placeWord (s : State) (w : Word) : State :=
  (s.setByte s.pc.toNat (w.extractLsb' 8 8)).setByte (s.pc.toNat + 1) (w.extractLsb' 0 8)

end Sys2Proof.Machine
end

