-- ==== Sys2Proof/Machine/Operands.lean ====
section
/-! DEFINITION. How operands become values: truncation and extension (R12), the immediate forms (R53), addresses through
`I` (R93), the key tests (R104), the decimal digits (R97). -/

namespace Sys2Proof.Machine

/-- `trunc_8(v)` of an exact integer (R12). -/
def trunc8 (v : Int) : Byte := BitVec.ofInt 8 v

/-- `trunc_16(v)` of an exact integer (R12). -/
def trunc16 (v : Int) : Word := BitVec.ofInt 16 v

/-- `int8(v)`: the two's-complement reading of `trunc_8(v)`, -128..127 (R12). -/
def int8 (v : Int) : Int := (trunc8 v).toInt

/-- `zext_16(nnn)` (R53). -/
def zext16 (nnn : Addr12) : Word := nnn.setWidth 16

/-- `I + k`, the exact address of the k-th byte of an access, with no wrap-around (R93). -/
def State.indexed (s : State) (k : Nat) : Nat := s.index.toNat + k

/-- The glyph address `font_offset + Vx * 5`, the font offset being 0 (R38, R96). -/
def glyphAddress (b : Byte) : Word := trunc16 (0 + b.toNat * 5)

/-- `KB >> s`, the mathematical shift: 0 when every bit is shifted out (R104). -/
def keysFrom (kb : Word) (s : Byte) : Word := kb >>> s.toNat

/-- `((KB >> Vx) & 1) == 1` (R105). -/
def keyHeld (kb : Word) (s : Byte) : Bool := keysFrom kb s &&& 1 == 1

/-- `((KB >> Vx) & ~1) != 0`, the source's literal mask test (R106). -/
def keyAboveHeld (kb : Word) (s : Byte) : Bool := keysFrom kb s &&& ~~~1 != 0

/-- `v div 100` (R97). -/
def hundreds (v : Byte) : Byte := trunc8 (v.toNat / 100 : Nat)

/-- `(v div 10) mod 10` (R97). -/
def tens (v : Byte) : Byte := trunc8 (v.toNat / 10 % 10 : Nat)

/-- `v mod 10` (R97). -/
def units (v : Byte) : Byte := trunc8 (v.toNat % 10 : Nat)

end Sys2Proof.Machine
end

