-- ==== Sys2Proof/Machine/Flags.lean ====
section
/-! DEFINITION. Every value the spec gives VF as a flag (R19). -/

namespace Sys2Proof.Machine

/-- 1 or 0. -/
def flag (b : Bool) : Byte := if b then 1 else 0

/-- The carry of `8xy4`: 1 if the exact sum is over 0xFF (R87). -/
def carryFlag (a b : Byte) : Byte := flag (decide (a.toNat + b.toNat > 0xFF))

/-- The exact difference read as a signed byte, `int8(a - b)` (R80). -/
def signedDiff (a b : Byte) : Int := int8 ((a.toNat : Int) - b.toNat)

/-- The flag of `8xy5` and `8xy7`: 1 if the signed 8-bit difference is greater than 0; not a borrow (R80, R88, R90). -/
def positiveFlag (a b : Byte) : Byte := flag (decide (signedDiff a b > 0))

/-- `Vy & 1`, the bit `8xy6` shifts out (R89). -/
def lowBitFlag (b : Byte) : Byte := b &&& 1

/-- `(Vy >> 7) & 1`, the bit `8xyE` shifts out (R91). -/
def highBitFlag (b : Byte) : Byte := (b >>> 7) &&& 1

end Sys2Proof.Machine
end

