-- ==== Sys2Proof/Machine/Alu.lean ====
section
/-! DEFINITION. Register arithmetic and logic (42_alu.md). The statements of each rule run in the order written, each
reading what the ones before it left (R16). -/

namespace Sys2Proof.Machine

/-- `LD Vx, kk` (R81). -/
def execLdImm (x : Reg) (kk : Byte) (s : State) : Result := .next (s.setReg x kk)

/-- `ADD Vx, kk`: modulo 256, no flag (R82). -/
def execAddImm (x : Reg) (kk : Byte) (s : State) : Result :=
  .next (s.setReg x (trunc8 ((s.reg x).toNat + kk.toNat)))

/-- `LD Vx, Vy` (R83). -/
def execLdReg (x y : Reg) (s : State) : Result := .next (s.setReg x (s.reg y))

/-- `OR Vx, Vy` (R84). -/
def execOrReg (x y : Reg) (s : State) : Result := .next (s.setReg x (s.reg x ||| s.reg y))

/-- `AND Vx, Vy` (R85). -/
def execAndReg (x y : Reg) (s : State) : Result := .next (s.setReg x (s.reg x &&& s.reg y))

/-- `XOR Vx, Vy` (R86). -/
def execXorReg (x y : Reg) (s : State) : Result := .next (s.setReg x (s.reg x ^^^ s.reg y))

/-- `ADD Vx, Vy`: the sum modulo 256, then VF the carry (R87). -/
def execAddReg (x y : Reg) (s : State) : Result :=
  let a := s.reg x
  let b := s.reg y
  .next ((s.setReg x (trunc8 (a.toNat + b.toNat))).setReg regF (carryFlag a b))

/-- `V[x] <- trunc_8(int8(a - b))`, then `V[15] <- 1` iff that signed value is positive: the shape `8xy5` and `8xy7`
share, and the second half of `8xy6` (R88, R90). -/
def State.subtractInto (s : State) (x : Reg) (a b : Byte) : State :=
  (s.setReg x (trunc8 (signedDiff a b))).setReg regF (positiveFlag a b)

/-- `SUB Vx, Vy` (R88). -/
def execSubReg (x y : Reg) (s : State) : Result := .next (s.subtractInto x (s.reg x) (s.reg y))

/-- The effect of `8xy7` on a state, which `8xy6` also runs (R63, R90). -/
def State.subnEffect (s : State) (x y : Reg) : State := s.subtractInto x (s.reg y) (s.reg x)

/-- The first half of `8xy6`: VF the low bit of Vy, then Vx half of Vy, read again after VF is written (R89). -/
def State.shrHalf (s : State) (x y : Reg) : State :=
  let s1 := s.setReg regF (lowBitFlag (s.reg y))
  s1.setReg x (s1.reg y >>> 1)

/-- `SHR Vx, Vy`: its own half, and then the whole effect of `8xy7` on the state so left (R89). -/
def execShr (x y : Reg) (s : State) : Result := .next ((s.shrHalf x y).subnEffect x y)

/-- `SUBN Vx, Vy` (R90). -/
def execSubn (x y : Reg) (s : State) : Result := .next (s.subnEffect x y)

/-- `SHL Vx, Vy`: VF bit 7 of Vy, then Vx twice Vy modulo 256, Vy read again after VF is written (R91). -/
def execShl (x y : Reg) (s : State) : Result :=
  let s1 := s.setReg regF (highBitFlag (s.reg y))
  .next (s1.setReg x (s1.reg y <<< 1))

/-- `RND Vx, kk`: this step's draw, masked; the draw is a free value (R10, R92, log entry 1). -/
def execRnd (x : Reg) (kk : Byte) (s : State) : Result := .next (s.setReg x (Config.rnd s.draws &&& kk))

end Sys2Proof.Machine
end

