-- ==== Sys2Proof/Machine/ControlFlow.lean ====
section
/-! DEFINITION. Control transfer (41_control_flow.md). `PC` here is the advanced PC (R62). -/

namespace Sys2Proof.Machine

/-- `RET`: PC from the slot at SP, then SP - 1 modulo 256; the slot is not cleared (R71). -/
def execRet (s : State) : Result :=
  unlessFault (stackFault? s.sp.toNat) (.next ((s.setPc (s.slot s.sp.toNat)).setSp (s.sp - 1)))

/-- `JP nnn` (R72). -/
def execJp (nnn : Addr12) (s : State) : Result := .next (s.setPc (zext16 nnn))

/-- `CALL nnn`: SP + 1 modulo 256, the advanced PC into that slot, PC to `nnn` (R73). -/
def execCall (nnn : Addr12) (s : State) : Result :=
  let sp1 := s.sp + 1
  unlessFault (stackFault? sp1.toNat) (.next (((s.setSp sp1).setSlot sp1.toNat s.pc).setPc (zext16 nnn)))

/-- `SE Vx, kk` (R74). -/
def execSeImm (x : Reg) (kk : Byte) (s : State) : Result := .next (s.skipIf (s.reg x == kk))

/-- `SNE Vx, kk` (R75). -/
def execSneImm (x : Reg) (kk : Byte) (s : State) : Result := .next (s.skipIf (s.reg x != kk))

/-- `SE Vx, Vy` (R76). -/
def execSeReg (x y : Reg) (s : State) : Result := .next (s.skipIf (s.reg x == s.reg y))

/-- `SNE Vx, Vy` (R77). -/
def execSneReg (x y : Reg) (s : State) : Result := .next (s.skipIf (s.reg x != s.reg y))

/-- `JP V0, nnn`: PC to `trunc_16(V0 + nnn)` (R78). -/
def execJpV0 (nnn : Addr12) (s : State) : Result :=
  .next (s.setPc (trunc16 ((s.reg reg0).toNat + nnn.toNat)))

end Sys2Proof.Machine
end

