-- ==== Sys2Proof/Machine/Display.lean ====
section
/-! DEFINITION. The display surface (44_display.md). -/

namespace Sys2Proof.Machine

/-- `CLS`: every display byte 0, the display's size kept (R102). -/
def execCls (s : State) : Result := .next (s.setDisp (List.replicate s.build.displayBytes 0))

/-- The check phase of `Dxyn`, in row order from row `i` on: of each row first the sprite byte's address, then the
display position (R103, R125). -/
def drawFault? (s : State) (px py : Nat) (i : Nat) : (rows : Nat) → Option Cause
  | 0 => none
  | rows + 1 =>
    if s.indexed i ≥ memSize then some (.memOob (s.indexed i))
    else if px ≥ s.build.displayW ∨ py + i ≥ s.build.displayH then some (.displayOob (py + i) (px / 8))
    else drawFault? s px py (i + 1) rows

/-- The display so far, and whether a set bit has been cleared (`hit`, R103). -/
structure Canvas where
  /-- The display bytes. -/
  disp : List Byte
  /-- Whether some row's XOR cleared a set bit. -/
  hit : Bool
  deriving DecidableEq, Repr

/-- One row of `Dxyn`: the sprite byte XORed whole into one display byte (R101, R103). -/
def Canvas.xorByte (c : Canvas) (b : Nat) (sprite : Byte) : Canvas :=
  { disp := c.disp.set b (c.disp.getD b 0 ^^^ sprite)
    hit := c.hit || c.disp.getD b 0 &&& sprite != 0 }

/-- The effect phase of `Dxyn`: the first `rows` rows, from row 0 up, the sprite read from memory at `I + i` (R103). -/
def State.drawRows (s : State) (px py : Nat) : (rows : Nat) → Canvas
  | 0 => { disp := s.disp, hit := false }
  | i + 1 => (s.drawRows px py i).xorByte (Build.cell s.build (py + i) (px / 8)) (s.byteAt (s.indexed i))

/-- `V[15] <- 1` on a collision; else VF keeps its value (R103, 90_conflicts.md C5). -/
def State.setHit (s : State) (hit : Bool) : State := if hit then s.setReg regF 1 else s

/-- `DRW Vx, Vy, n`: Vx and Vy read once, all rows checked, then the rows drawn, then VF (R103). -/
def execDrw (x y : Reg) (n : Nibble) (s : State) : Result :=
  let px := (s.reg x).toNat
  let py := (s.reg y).toNat
  unlessFault (drawFault? s px py 0 n.toNat)
    (.next ((s.setDisp (s.drawRows px py n.toNat).disp).setHit (s.drawRows px py n.toNat).hit))

end Sys2Proof.Machine
end

