-- ==== Sys2Proof/Machine/IndexMemory.lean ====
section
/-! DEFINITION. The index register and memory transfer (43_index_memory.md). -/

namespace Sys2Proof.Machine

/-- `LD I, nnn` (R94). -/
def execLdI (nnn : Addr12) (s : State) : Result := .next (s.setIndex (zext16 nnn))

/-- `ADD I, Vx`: modulo 2^16, no flag (R95). -/
def execAddI (x : Reg) (s : State) : Result :=
  .next (s.setIndex (trunc16 (s.index.toNat + (s.reg x).toNat)))

/-- `LD F, Vx`: I to the glyph of Vx, Vx not masked (R96). -/
def execLdFont (x : Reg) (s : State) : Result := .next (s.setIndex (glyphAddress (s.reg x)))

/-- `LD B, Vx`: hundreds, tens and units at I, I + 1 and I + 2 (R97). -/
def execLdBcd (x : Reg) (s : State) : Result :=
  let v := s.reg x
  unlessFault (memFault? s.index.toNat 3)
    (.next (((s.setByte (s.indexed 0) (hundreds v)).setByte (s.indexed 1) (tens v)).setByte (s.indexed 2) (units v)))

/-- The stores of `Fx55`: `V[k]` to `I + k` for k from 0 up to `count - 1` (R98). -/
def State.storeFrom (s : State) : (count : Nat) → State
  | 0 => s
  | k + 1 => (s.storeFrom k).setByte (s.indexed k) (s.reg (BitVec.ofNat 4 k))

/-- `LD [I], Vx`: V0..Vx to memory from I on, then I + x + 1 modulo 2^16 (R98). -/
def execStoreRegs (x : Reg) (s : State) : Result :=
  unlessFault (memFault? s.index.toNat (x.toNat + 1))
    (.next ((s.storeFrom (x.toNat + 1)).setIndex (trunc16 (s.index.toNat + x.toNat + 1))))

/-- The loads of `Fx65`: `V[k]` from `I + k` for k from 0 up to `count - 1` (R99). -/
def State.loadFrom (s : State) : (count : Nat) → State
  | 0 => s
  | k + 1 => (s.loadFrom k).setReg (BitVec.ofNat 4 k) (s.byteAt (s.indexed k))

/-- `LD Vx, [I]`: V0..Vx from memory from I on; I is not advanced (R99). -/
def execLoadRegs (x : Reg) (s : State) : Result :=
  unlessFault (memFault? s.index.toNat (x.toNat + 1)) (.next (s.loadFrom (x.toNat + 1)))

end Sys2Proof.Machine
end

