-- ==== Sys2Proof/Machine/KeysTimers.lean ====
section
/-! DEFINITION. Keyboard tests and timer access (45_keys_timers.md). -/

namespace Sys2Proof.Machine

/-- `SKP Vx`: skip if key Vx is held; Vx of 16 or more names no held key (R104, R105). -/
def execSkp (x : Reg) (s : State) : Result := .next (s.skipIf (keyHeld s.kb (s.reg x)))

/-- `SKNP Vx`: the source's literal mask test: skip if a key with an index above Vx is held (R106). -/
def execSknp (x : Reg) (s : State) : Result := .next (s.skipIf (keyAboveHeld s.kb (s.reg x)))

/-- `LD Vx, DT`: the value before this step's countdown (R107). -/
def execLdVxDt (x : Reg) (s : State) : Result := .next (s.setReg x s.dt)

/-- The "newly pressed" mask of `Fx0A`, from `KB` alone; always 0 (R33, R108). -/
def newlyPressed (kb : Word) : Word := (kb ^^^ kb) &&& kb

/-- `LD Vx, K`: PC back to this instruction, at every step and whatever the keyboard holds; Vx is never written (R108).
The other branch is never reached and the spec gives it no effect (log entry 6). -/
def execLdVxKey (_x : Reg) (s : State) : Result :=
  if newlyPressed s.kb ≠ 0 then .next s else .next (s.setPc (s.pc - 2))

/-- `LD DT, Vx` (R109). -/
def execLdDtVx (x : Reg) (s : State) : Result := .next (s.setDt (s.reg x))

/-- `LD ST, Vx` (R110). -/
def execLdStVx (x : Reg) (s : State) : Result := .next (s.setSt (s.reg x))

end Sys2Proof.Machine
end

