-- ==== Sys2Proof/Machine/Cycle.lean ====
section
/-! DEFINITION. The step's pseudocode of R60 around `exec`. -/

namespace Sys2Proof.Machine

/-- `execute(w, rnd)`: the instruction the word is, or nothing for a word no row matches (R63). -/
def execute (w : Word) (s : State) : Result :=
  match decodeWord w with
  | .ok i => exec i s
  | .error _ => execUnmatched s

/-- What a step leaves: the end of the step on the effect's state; or, on a fault, the state before the step with the
record set and nothing else committed (R60, R66). -/
def settle (before : State) (w : Word) (effect : Result) : Result :=
  match effect with
  | .next t => .next t.endStep
  | .fault (.raised c) => .next (before.takeFault (some w) c)
  | .fault (.stopped r) => .fault (.stopped r)
  | .refused r => .refused r

/-- The step of a core that is not faulted (R60). -/
def runningStep (s : State) : Result :=
  match fetch s with
  | .error c => .next (s.takeFault none c)
  | .ok w => settle s w (execute w s.preAdvance)

end Sys2Proof.Machine
end

