-- ==== Sys2Proof/Machine/Step.lean ====
section
/-! DEFINITION. One step of the core (R60), and placing an instruction where the next step fetches it. -/

namespace Sys2Proof.Machine

/-- `step(rnd)` of R60; the draw `rnd` is `Config.rnd s.draws` (log entry 1). -/
def step (s : State) : Host.Outcome State Fault Refusal :=
  match s.fault with
  | some record => stoppedStep record
  | none => runningStep s

/-- `s` with the instruction of bits `w` (of which `nbits` are given) stored at PC and PC + 1, high byte first; nothing
else changes. It stands for the driver's `load` of a program (R115, log entry 5). -/
def State.withFetchWord (s : State) (nbits w : Nat) : State := s.placeWord (BitVec.ofNat 16 (w % 2 ^ nbits))

end Sys2Proof.Machine
end

