-- ==== Sys2Proof/Machine/Driver.lean ====
section
/-! DEFINITION. The driver's operations on the core (50_interface.md). Each is atomic and happens between steps (R112). -/

namespace Sys2Proof.Machine

/-- `reset()`: the power-on state, the build kept (R114, R136). The draws already used stay used, so that no draw comes
twice (log entry 1). -/
def State.resetByDriver (s : State) : State := State.resetOf s.build s.draws

/-- MAX_IMAGE: 4096 - 0x200 bytes (R115). -/
def maxImage : Nat := memSize - 0x200

/-- `mem[base + j] <- image[j]` for every j (R115). -/
def State.writeImage (s : State) (base : Nat) : List Byte → State
  | [] => s
  | b :: rest => (s.setByte base b).writeImage (base + 1) rest

/-- `load(image)`: the image from 0x200 on; an image of more than 3584 bytes fails, is reported (`none`) and writes nothing
(R115). When the driver may issue it is `Session.drive`'s (R121). -/
def State.load (s : State) (image : List Byte) : Option State :=
  if image.length ≤ maxImage then some (s.writeImage 0x200 image) else none

/-- `key_press(k)`: bit k set if k < 16, else nothing (R116). -/
def State.keyPress (s : State) (k : Nat) : State :=
  if k < 16 then { s with kb := s.kb ||| ((1 : Word) <<< k) } else s

/-- `key_release(k)`: bit k cleared if k < 16, else nothing (R117). -/
def State.keyRelease (s : State) (k : Nat) : State :=
  if k < 16 then { s with kb := s.kb &&& ~~~((1 : Word) <<< k) } else s

/-- `read_display()` (R118). -/
def State.readDisplay (s : State) : List Byte := s.disp

/-- What `read_diag()` returns (R119). -/
structure Diag where
  v : Vector Byte 16
  index : Word
  pc : Word
  sp : Byte
  dt : Byte
  st : Byte
  ticks : BitVec 64
  deriving DecidableEq, Repr

/-- `read_diag()` (R119). -/
def State.readDiag (s : State) : Diag := ⟨s.v, s.index, s.pc, s.sp, s.dt, s.st, s.ticks⟩

/-- `read_fault()` (R120). -/
def State.readFault (s : State) : Option FaultRecord := s.fault

/-- Whether the pixel at a row and a horizontal position is lit: bit 7 of a display byte is its leftmost pixel (R29, R100).
PRESUMED (the spec marks it as general knowledge); no rule of the core depends on it. Unsafe: see log entry 8. -/
def State.pixel (s : State) (row px : Nat) : Bool := (s.dispByte (Build.cell s.build row (px / 8))).getLsbD (7 - px % 8)

/-- The operations of R111. -/
inductive DriverOp where
  /-- `step(rnd)` (R113). -/
  | step
  /-- `reset()` (R114). -/
  | reset
  /-- `load(image)` (R115). -/
  | load (image : List Byte)
  /-- `key_press(k)` (R116). -/
  | keyPress (k : Nat)
  /-- `key_release(k)` (R117). -/
  | keyRelease (k : Nat)
  /-- `read_display()` (R118). -/
  | readDisplay
  /-- `read_diag()` (R119). -/
  | readDiag
  /-- `read_fault()` (R120). -/
  | readFault
  deriving DecidableEq, Repr

/-- What the core returns to the driver (R121, the table's last column). -/
inductive Reply where
  /-- Nothing. -/
  | nothing
  /-- Of `load`: whether it succeeded; a failure is reported (R115). -/
  | loadReport (succeeded : Bool)
  /-- Of `read_display()`. -/
  | display (bytes : List Byte)
  /-- Of `read_diag()`. -/
  | diag (values : Diag)
  /-- Of `read_fault()`. -/
  | fault (record : Option FaultRecord)
  deriving DecidableEq, Repr

/-- The core after a step request, as the driver sees it: a core that takes no step is unchanged (R67, R113). -/
def State.afterStepRequest (s : State) : State :=
  match Sys2Proof.Machine.step s with
  | .next t => t
  | .fault _ => s
  | .refused _ => s

/-- The core with what the driver's one conditional duty depends on: whether a `load` is still open to it. It is, once,
after reset and before the first step (R115, R121). This is no state of the core: no instruction reads or writes it. -/
structure Session where
  /-- The core. -/
  core : State
  /-- Since the last reset no step has been requested and no image written. -/
  mayLoad : Bool
  deriving DecidableEq, Repr

/-- Power-on, which is a reset: the point every use of a core starts at (R121, R137, R139). -/
def Session.start (build : Build) (draws : Nat) : Session := ⟨State.resetOf build draws, true⟩

/-- A driver operation the session allows; none where the driver has no such move (R121; `refuse` of U25): a `load` after
the first step or after another load. A load whose image is too long fails and leaves everything unmodified (R115). -/
def Session.drive (d : Session) : DriverOp → Option Session
  | .step => some ⟨d.core.afterStepRequest, false⟩
  | .reset => some ⟨d.core.resetByDriver, true⟩
  | .load image =>
    if d.mayLoad then
      match d.core.load image with
      | some t => some ⟨t, false⟩
      | none => some d
    else none
  | .keyPress k => some { d with core := d.core.keyPress k }
  | .keyRelease k => some { d with core := d.core.keyRelease k }
  | .readDisplay => some d
  | .readDiag => some d
  | .readFault => some d

/-- What the core returns for an operation (R115, R118, R119, R120, R121). -/
def Session.reply (d : Session) : DriverOp → Reply
  | .step => .nothing
  | .reset => .nothing
  | .load image => .loadReport (d.core.load image).isSome
  | .keyPress _ => .nothing
  | .keyRelease _ => .nothing
  | .readDisplay => .display d.core.readDisplay
  | .readDiag => .diag d.core.readDiag
  | .readFault => .fault d.core.readFault

/-- A sequence of driver operations: what the driver can do, in one total order (R47, R112, R121); none where one of them
is no move. -/
def Session.driveAll (d : Session) : List DriverOp → Option Session
  | [] => some d
  | op :: rest => (d.drive op).bind fun next => next.driveAll rest

end Sys2Proof.Machine
end

