-- ==== Sys2Proof/Safety.lean ====
section
/-! DEFINITION. What counts as a safe run, the invariants of the machine, and the frames, in the terms claims use. -/

namespace Sys2Proof.Machine

/-- The core runs: it holds no fault record, so it takes steps (R67). A run that leaves this is no safe run: every claim
about a program must exclude it (R124). -/
def State.running (s : State) : Prop := s.fault = none

/-- A cause names an access that really lies outside its array, in a build (R124). -/
def Cause.genuine (b : Build) : Cause → Prop
  | .fetchOob pc => memSize ≤ pc + 1
  | .memOob address => memSize ≤ address
  | .stackOob index => 16 ≤ index
  | .displayOob row column => b.displayH ≤ row ∨ b.columns ≤ column

/-- What every step and every driver operation keeps: the build is one R8 allows, memory is in its canonical form and
within 0..0xFFF (R36), the display has its DISPLAY_W * DISPLAY_H / 8 bytes (R28), and a fault record says what R126 says. -/
structure Inv (s : State) : Prop where
  build_ok : s.build.wellFormed = true
  mem_ok : Mem.wf s.build.font s.mem = true
  disp_ok : s.disp.length = s.build.displayBytes
  fault_pc : ∀ r, s.fault = some r → r.pc = s.pc
  fault_word : ∀ r, s.fault = some r → (r.word = none ↔ r.cause = .fetchOob s.pc.toNat)
  fault_genuine : ∀ r, s.fault = some r → r.cause.genuine s.build

/-- What every driver operation keeps: the core's invariant; and while a load is open, a core that is as reset left it but
for the keyboard (R115, R121). -/
structure Session.Inv (d : Session) : Prop where
  core_ok : Machine.Inv d.core
  open_fresh : d.mayLoad = true → d.core = { State.resetOf d.core.build d.core.draws with kb := d.core.kb }

/-- The values SP can hold on a run from reset: a slot's index, or 255 after a `RET` on the empty stack (R24, R25, R71). -/
def State.spInReach (s : State) : Prop := s.sp.toNat ≤ 15 ∨ s.sp = 255

/-! ## Frames: what an instruction leaves alone -/

/-- Every register but the listed ones holds what it held. -/
def RegsKeptBut (changed : List Reg) (s t : State) : Prop := ∀ r, r ∉ changed → t.reg r = s.reg r

/-- Every byte of memory reads as before. -/
def MemoryKept (s t : State) : Prop := ∀ a, t.byteAt a = s.byteAt a

/-- Nothing but the listed registers changes: every other register, I, PC, SP, every stack slot, DT, ST, KB, the display,
ticks, the fault record, the model's own fields and every byte of memory stay. -/
def OnlyRegs (changed : List Reg) (s t : State) : Prop :=
  RegsKeptBut changed s t ∧ MemoryKept s t ∧ t = { s with v := t.v }

/-- Nothing but PC changes. -/
def OnlyPc (s t : State) : Prop := RegsKeptBut [] s t ∧ MemoryKept s t ∧ t = { s with pc := t.pc }

/-- Nothing but I changes. -/
def OnlyIndex (s t : State) : Prop := RegsKeptBut [] s t ∧ MemoryKept s t ∧ t = { s with index := t.index }

/-- Nothing but DT changes. -/
def OnlyDt (s t : State) : Prop := RegsKeptBut [] s t ∧ MemoryKept s t ∧ t = { s with dt := t.dt }

/-- Nothing but ST changes. -/
def OnlySt (s t : State) : Prop := RegsKeptBut [] s t ∧ MemoryKept s t ∧ t = { s with st := t.st }

/-- Nothing but the display bytes changes. -/
def OnlyDisplay (s t : State) : Prop := RegsKeptBut [] s t ∧ MemoryKept s t ∧ t = { s with disp := t.disp }

/-- Nothing but PC, SP and the call stack changes. -/
def OnlyCallState (s t : State) : Prop :=
  RegsKeptBut [] s t ∧ MemoryKept s t ∧ t = { s with pc := t.pc, sp := t.sp, stack := t.stack }

end Sys2Proof.Machine
end

