-- ==== Sys2Proof/Certificates/Slice0/Obligations.lean ====
section
/-! DEFINITION. The statements for the provers. `exec i s` is the instruction's effect on the state after the pre-advance
of PC, so `s.pc` in a statement about `exec` is the address after the instruction (R62); `step s` is the whole step. Where
a statement rests on a decision the spec marks as its own (D<n> of 92_eei_decisions.md), its docstring names it. -/

open Sys2Proof Sys2Proof.Machine

/-! ## Encoding (30_encoding.md) -/

/-- Decoding the encoding of any instruction gives it back, with every operand at every value: no bit of an encoding is
dropped. Every instruction is well formed. -/
def Obligations.DecodeOfEncode : Prop :=
  ∀ i : Instr, i.wellFormed = true ∧ decodeWord (encode i) = .ok i

/-- Every word that decodes is the encoding of what it decodes to: where a word is an instruction, it is one alone. -/
def Obligations.EncodeOfDecode : Prop :=
  ∀ (w : Word) (i : Instr), decodeWord w = .ok i → encode i = w

/-- The two-level decoder and the table of match and mask agree: a word decodes exactly when some row matches it, and the
only row that matches it is its instruction's, so no two rows overlap (section 3; D15). -/
def Obligations.DecoderAgreesWithOpcodeTable : Prop :=
  (∀ w : Word, (∃ i, decodeWord w = .ok i) ↔ ∃ row ∈ opcodeTable, row.matchesWord w = true) ∧
  (∀ (w : Word) (i : Instr), decodeWord w = .ok i → ∀ row ∈ opcodeTable, row.matchesWord w = true → row = rowOf i)

/-- The unmatched words, class by class, are exactly those of the table of section 4 (D15). -/
def Obligations.UnmatchedWordsByClass : Prop :=
  ∀ w : Word, decodeWord w = .error (.unmatched w) ↔
    (opClass w = 0x0 ∧ w ≠ 0x00E0 ∧ w ≠ 0x00EE) ∨
    (opClass w = 0x5 ∧ fieldN w ≠ 0x0) ∨
    (opClass w = 0x8 ∧ fieldN w ∈ ([0x8, 0x9, 0xA, 0xB, 0xC, 0xD, 0xF] : List Nibble)) ∨
    (opClass w = 0x9 ∧ fieldN w ≠ 0x0) ∨
    (opClass w = 0xE ∧ fieldKk w ∉ ([0x9E, 0xA1] : List Byte)) ∨
    (opClass w = 0xF ∧ fieldKk w ∉ ([0x07, 0x0A, 0x15, 0x18, 0x1E, 0x29, 0x33, 0x55, 0x65] : List Byte))

/-- Words of the spec's own examples decode to the instruction they stand for, and two near misses to none. -/
def Obligations.SampleWordsDecode : Prop :=
  decodeWord 0x6A05 = .ok (.ldImm 0xA 0x05) ∧ decodeWord 0x2208 = .ok (.call 0x208) ∧
  decodeWord 0x8305 = .ok (.subReg 0x3 0x0) ∧ decodeWord 0xD122 = .ok (.drw 0x1 0x2 0x2) ∧
  decodeWord 0xF155 = .ok (.storeRegs 0x1) ∧ decodeWord 0xE1A1 = .ok (.sknp 0x1) ∧
  decodeWord 0x5121 = .error (.unmatched 0x5121) ∧ decodeWord 0x01E0 = .error (.unmatched 0x01E0)

/-! ## The step (40_cycle.md) -/

/-- When the two bytes at PC decode to `i`, the step is `exec i` on the state with PC advanced by 2, with the countdown of
both timers, the tick and the used draw after it; and where `exec i` faults, the step leaves the state before it with the
record set. The draw counter is the model's own (log entry 1). -/
def Obligations.StepRunsDecodedInstruction : Prop :=
  ∀ (s : State) (w : Word) (i : Instr), s.fault = none → s.pc.toNat + 1 < 4096 →
    w = wordOfBytes (s.byteAt s.pc.toNat) (s.byteAt (s.pc.toNat + 1)) → decodeWord w = .ok i →
    (∀ t, exec i { s with pc := s.pc + 2 } = .next t →
      step s = .next { t with dt := countDown t.dt, st := countDown t.st, ticks := t.ticks + 1, draws := t.draws + 1 }) ∧
    (∀ c, exec i { s with pc := s.pc + 2 } = .fault (.raised c) →
      step s = .next { s with fault := some ⟨c, s.pc, some w⟩ })

/-- A word no row matches has no effect of its own: its step advances PC by 2, counts both timers down and counts a tick
(section 4 of 30_encoding.md; D15). -/
def Obligations.UnmatchedWordOnlyAdvances : Prop :=
  ∀ (s : State) (w : Word), s.fault = none → s.pc.toNat + 1 < 4096 →
    w = wordOfBytes (s.byteAt s.pc.toNat) (s.byteAt (s.pc.toNat + 1)) → decodeWord w = .error (.unmatched w) →
    ∃ t, step s = .next t ∧ t.pc = s.pc + 2 ∧ t.dt.toNat = s.dt.toNat - 1 ∧ t.st.toNat = s.st.toNat - 1 ∧
      t.ticks = s.ticks + 1 ∧ RegsKeptBut [] s t ∧ MemoryKept s t ∧
      t = { s with pc := t.pc, dt := t.dt, st := t.st, ticks := t.ticks, draws := t.draws }

/-- The fetch reads `mem[PC] * 256 + mem[PC + 1]` at any PC, odd ones too, and faults when PC + 1 is 4096 or more; the
faulting step then has no other effect (D4, D17). -/
def Obligations.FetchIsBigEndianOrFaults : Prop :=
  (∀ s : State, s.pc.toNat + 1 < 4096 →
    ∃ w : Word, fetch s = .ok w ∧
      w.toNat = (s.byteAt s.pc.toNat).toNat * 256 + (s.byteAt (s.pc.toNat + 1)).toNat) ∧
  (∀ s : State, s.fault = none → 4096 ≤ s.pc.toNat + 1 →
    step s = .next { s with fault := some ⟨.fetchOob s.pc.toNat, s.pc, none⟩ })

/-- A step that faults commits nothing: the only change is the record, which holds the address fetched from, no word
exactly for a failed fetch, and a cause that really lies outside its array (D3, D23). -/
def Obligations.FaultingStepCommitsNothing : Prop :=
  ∀ (s t : State) (r : FaultRecord), s.fault = none → step s = .next t → t.fault = some r →
    t = { s with fault := some r } ∧ r.pc = s.pc ∧ (r.word = none ↔ r.cause = .fetchOob s.pc.toNat) ∧
      r.cause.genuine s.build

/-- While the core is faulted it takes no step: the stored fault is reported and, for the driver, nothing changes
(D3; that the outcome is a fault is the model's choice, log entry 4). -/
def Obligations.FaultedCoreTakesNoStep : Prop :=
  ∀ (s : State) (r : FaultRecord), s.fault = some r → step s = .fault (.stopped r) ∧ s.afterStepRequest = s

/-- A step of a running core always answers a next state: it completes its one instruction, or it faults. -/
def Obligations.RunningStepAlwaysCompletes : Prop :=
  ∀ s : State, s.fault = none →
    ∃ t, step s = .next t ∧
      ((t.fault = none ∧ t.ticks = s.ticks + 1) ∨ ∃ r, t = { s with fault := some r })

/-- Every step that does not fault counts each timer down once toward zero, after the instruction's effect: from the value
the instruction leaves, which is Vx after `Fx15` (for DT) and `Fx18` (for ST), and the old value after every other word
(D25). -/
def Obligations.TimersCountDownOncePerStep : Prop :=
  ∀ (s t : State) (w : Word), s.fault = none → fetch s = .ok w → step s = .next t → t.fault = none →
    t.dt.toNat = (match decodeWord w with | .ok (.ldDtVx x) => s.reg x | _ => s.dt).toNat - 1 ∧
    t.st.toNat = (match decodeWord w with | .ok (.ldStVx x) => s.reg x | _ => s.st).toNat - 1

/-! ## Invariants and whole-machine rules -/

/-- Reset, of every build R8 allows and so of the default build (log entries 2 and 3), leaves a state that meets the
invariant, with SP in reach; and so does a session's start. -/
def Obligations.ResetMeetsTheInvariant : Prop :=
  (∀ (b : Build) (n : Nat), b.wellFormed = true → (Session.start b n).Inv ∧ Inv (State.resetOf b n) ∧ (State.resetOf b n).spInReach) ∧
  Inv State.reset

/-- Every step keeps the invariant: memory canonical and within 0..0xFFF, the display's size, the build, an exact record. -/
def Obligations.StepKeepsTheInvariant : Prop :=
  ∀ s t : State, Inv s → step s = .next t → Inv t

/-- Every sequence of driver operations (steps, resets, loads, key events, reads) keeps the session's invariant: the core's
own; and while a load is open the core is as reset left it, but for the keyboard (D20, D26; log entry 5). -/
def Obligations.DriverKeepsTheInvariant : Prop :=
  ∀ (ops : List DriverOp) (d e : Session), d.Inv → d.driveAll ops = some e → e.Inv

/-- SP stays 0..15 or 255 over every sequence of driver operations; and a step that brings SP to 255 from any other value
is a `RET` on the empty stack (D5). -/
def Obligations.StackPointerStaysInReach : Prop :=
  (∀ (ops : List DriverOp) (d e : Session), d.core.spInReach → d.driveAll ops = some e → e.core.spInReach) ∧
  (∀ s t : State, step s = .next t → s.sp ≠ 255 → t.sp = 255 → s.sp = 0 ∧ fetch s = .ok 0x00EE)

/-- Which instructions may change which element: PC (once advanced), the general registers, memory, the display, SP, the
stack, I, the timers; and what no instruction changes: the keyboard, ticks, the record, the build and the model's draw
counter (sections 1 and 13 of 10_state.md). -/
def Obligations.ElementsChangeOnlyByTheirInstructions : Prop :=
  ∀ (i : Instr) (s t : State), exec i s = .next t →
    (t.pc ≠ s.pc → i = .ret ∨ (∃ nnn, i = .jp nnn ∨ i = .call nnn ∨ i = .jpV0 nnn) ∨
      (∃ x kk, i = .seImm x kk ∨ i = .sneImm x kk) ∨ (∃ x y, i = .seReg x y ∨ i = .sneReg x y) ∨
      (∃ x, i = .skp x ∨ i = .sknp x ∨ i = .ldVxKey x)) ∧
    (t.v ≠ s.v → (∃ x kk, i = .ldImm x kk ∨ i = .addImm x kk ∨ i = .rnd x kk) ∨
      (∃ x y, i = .ldReg x y ∨ i = .orReg x y ∨ i = .andReg x y ∨ i = .xorReg x y) ∨
      (∃ x y, i = .addReg x y ∨ i = .subReg x y ∨ i = .shr x y ∨ i = .subn x y ∨ i = .shl x y) ∨
      (∃ x y n, i = .drw x y n) ∨ (∃ x, i = .ldVxDt x ∨ i = .loadRegs x)) ∧
    (t.mem ≠ s.mem → (∃ x, i = .ldBcd x) ∨ (∃ x, i = .storeRegs x)) ∧
    (t.disp ≠ s.disp → i = .cls ∨ ∃ x y n, i = .drw x y n) ∧
    (t.sp ≠ s.sp → i = .ret ∨ ∃ nnn, i = .call nnn) ∧
    (t.stack ≠ s.stack → ∃ nnn, i = .call nnn) ∧
    (t.index ≠ s.index → (∃ nnn, i = .ldI nnn) ∨ (∃ x, i = .addI x) ∨ (∃ x, i = .ldFont x) ∨ (∃ x, i = .storeRegs x)) ∧
    (t.dt ≠ s.dt → ∃ x, i = .ldDtVx x) ∧
    (t.st ≠ s.st → ∃ x, i = .ldStVx x) ∧
    t.kb = s.kb ∧ t.ticks = s.ticks ∧ t.fault = s.fault ∧ t.build = s.build ∧ t.draws = s.draws

/-- VF changes only by the six instructions that write it as a flag or by an instruction whose destination it is; of
`Fx65` that is `FF65` alone (section 1 of 10_state.md). -/
def Obligations.FlagChangesOnlyByItsInstructions : Prop :=
  ∀ (i : Instr) (s t : State), exec i s = .next t → t.reg regF ≠ s.reg regF →
    (∃ x y, i = .addReg x y ∨ i = .subReg x y ∨ i = .shr x y ∨ i = .subn x y ∨ i = .shl x y) ∨
    (∃ x y n, i = .drw x y n) ∨
    (∃ kk, i = .ldImm regF kk ∨ i = .addImm regF kk ∨ i = .rnd regF kk) ∨
    (∃ y, i = .ldReg regF y ∨ i = .orReg regF y ∨ i = .andReg regF y ∨ i = .xorReg regF y) ∨
    i = .ldVxDt regF ∨ i = .loadRegs regF

/-- Nothing reads `ticks` or ST: two cores that differ in these alone step to states that differ in these alone, whatever
word they fetch (sections 5, 8 and 11 of 10_state.md). -/
def Obligations.TicksAndSoundTimerAreUnread : Prop :=
  ∀ (s t : State) (b : Byte) (n : BitVec 64), step s = .next t →
    ∃ u, step { s with st := b, ticks := n } = .next u ∧ u = { t with st := u.st, ticks := u.ticks }

/-- The canonical form is one: two well-formed memories of a build that read alike at every address are equal lists (the
model's choice of representation, log entry 10). -/
def Obligations.MemoriesThatReadAlikeAreEqual : Prop :=
  ∀ (font : Font) (m m' : List Host.Cell), Mem.wf font m = true → Mem.wf font m' = true →
    (∀ a, Mem.read font m a = Mem.read font m' a) → m = m'

/-- A word stored at PC, high byte first, is the word the next fetch reads: no cache, no delay (section 6 of 20_memory.md,
which marks it as derived). -/
def Obligations.StoredWordIsFetched : Prop :=
  ∀ (s : State) (w : Word), s.pc.toNat + 1 < 4096 →
    fetch ((s.setByte s.pc.toNat (w.extractLsb' 8 8)).setByte (s.pc.toNat + 1) (w.extractLsb' 0 8)) = .ok w

/-! ## Control transfer (41_control_flow.md) -/

/-- `JP nnn`: PC is `nnn`, odd ones too; nothing else changes. Its words are all of `1nnn`. -/
def Obligations.JumpLoadsTheAddress : Prop :=
  (∀ (s : State) (nnn : Addr12), ∃ t, exec (.jp nnn) s = .next t ∧ t.pc.toNat = nnn.toNat ∧ OnlyPc s t) ∧
  (∀ w : Word, w &&& 0xF000 = 0x1000 → decodeWord w = .ok (.jp (fieldNnn w)))

/-- `JP V0, nnn`: PC is the exact sum of V0 and `nnn`, which never wraps 16 bits; nothing else changes. Its
words are all of `Bnnn`. -/
def Obligations.JumpWithOffsetAddsRegisterZero : Prop :=
  (∀ (s : State) (nnn : Addr12),
    ∃ t, exec (.jpV0 nnn) s = .next t ∧ t.pc.toNat = (s.reg 0x0).toNat + nnn.toNat ∧ OnlyPc s t) ∧
  (∀ w : Word, w &&& 0xF000 = 0xB000 → decodeWord w = .ok (.jpV0 (fieldNnn w)))

/-- `SE Vx, kk` and `SNE Vx, kk`: 2 more on the advanced PC exactly when the condition holds; nothing else changes.
Their words are all of `3xkk` and `4xkk`. -/
def Obligations.SkipsOnImmediate : Prop :=
  (∀ (s : State) (x : Reg) (kk : Byte),
    (∃ t, exec (.seImm x kk) s = .next t ∧ t.pc = (if s.reg x = kk then s.pc + 2 else s.pc) ∧ OnlyPc s t) ∧
    (∃ t, exec (.sneImm x kk) s = .next t ∧ t.pc = (if s.reg x = kk then s.pc else s.pc + 2) ∧ OnlyPc s t)) ∧
  (∀ w : Word, (w &&& 0xF000 = 0x3000 → decodeWord w = .ok (.seImm (fieldX w) (fieldKk w))) ∧
    (w &&& 0xF000 = 0x4000 → decodeWord w = .ok (.sneImm (fieldX w) (fieldKk w))))

/-- `SE Vx, Vy` and `SNE Vx, Vy`: 2 more on the advanced PC exactly when the condition holds; nothing else changes.
Their words are all of `5xy0` and `9xy0`. -/
def Obligations.SkipsOnRegisters : Prop :=
  (∀ (s : State) (x y : Reg),
    (∃ t, exec (.seReg x y) s = .next t ∧ t.pc = (if s.reg x = s.reg y then s.pc + 2 else s.pc) ∧ OnlyPc s t) ∧
    (∃ t, exec (.sneReg x y) s = .next t ∧ t.pc = (if s.reg x = s.reg y then s.pc else s.pc + 2) ∧ OnlyPc s t)) ∧
  (∀ w : Word, (w &&& 0xF00F = 0x5000 → decodeWord w = .ok (.seReg (fieldX w) (fieldY w))) ∧
    (w &&& 0xF00F = 0x9000 → decodeWord w = .ok (.sneReg (fieldX w) (fieldY w))))

/-- `CALL nnn` inside the stack: SP one up modulo 256, the address after the call in that slot and every other slot kept,
PC at `nnn`; nothing else changes (D5). -/
def Obligations.CallPushesTheReturnAddress : Prop :=
  ∀ (s : State) (nnn : Addr12), (s.sp.toNat + 1) % 256 < 16 →
    ∃ t, exec (.call nnn) s = .next t ∧ t.sp.toNat = (s.sp.toNat + 1) % 256 ∧ t.slot t.sp.toNat = s.pc ∧
      (∀ j, j ≠ t.sp.toNat → t.slot j = s.slot j) ∧ t.pc.toNat = nnn.toNat ∧ OnlyCallState s t

/-- `RET` inside the stack: PC from the slot at SP, SP one down modulo 256, every slot kept; nothing else changes. On the
empty stack it takes slot 0 and leaves SP at 255 (D5). -/
def Obligations.ReturnPopsTheAddress : Prop :=
  ∀ s : State, s.sp.toNat < 16 →
    ∃ t, exec .ret s = .next t ∧ t.pc = s.slot s.sp.toNat ∧ t.sp.toNat = (s.sp.toNat + 255) % 256 ∧
      t.stack = s.stack ∧ OnlyCallState s t

/-- A call whose new SP, or a return whose SP, is 16 or more faults with STACK_OOB and that index (D3, D5). -/
def Obligations.StackAccessOutsideFaults : Prop :=
  (∀ (s : State) (nnn : Addr12), 16 ≤ (s.sp.toNat + 1) % 256 →
    exec (.call nnn) s = .fault (.raised (.stackOob ((s.sp.toNat + 1) % 256)))) ∧
  (∀ s : State, 16 ≤ s.sp.toNat → exec .ret s = .fault (.raised (.stackOob s.sp.toNat)))

/-- A call inside the stack and the return from it, whatever the subroutine did as long as it left SP and the stack as the
call left them: PC is the address after the call and SP its value before it (90_conflicts.md C7; D5). -/
def Obligations.ReturnUndoesCall : Prop :=
  ∀ (s : State) (nnn : Addr12), (s.sp.toNat + 1) % 256 < 16 →
    ∃ t, exec (.call nnn) s = .next t ∧
      ∀ t' : State, t'.sp = t.sp → t'.stack = t.stack →
        ∃ u, exec .ret t' = .next u ∧ u.pc = s.pc ∧ u.sp = s.sp

/-! ## Register arithmetic and logic (42_alu.md) -/

/-- `LD Vx, kk` and `LD Vx, Vy`: Vx takes the value; nothing else changes, VF and PC included.
Their words are all of `6xkk` and `8xy0`. -/
def Obligations.LoadsSetTheirRegister : Prop :=
  (∀ (s : State) (x y : Reg) (kk : Byte),
    (∃ t, exec (.ldImm x kk) s = .next t ∧ t.reg x = kk ∧ OnlyRegs [x] s t) ∧
    (∃ t, exec (.ldReg x y) s = .next t ∧ t.reg x = s.reg y ∧ OnlyRegs [x] s t)) ∧
  (∀ w : Word, (w &&& 0xF000 = 0x6000 → decodeWord w = .ok (.ldImm (fieldX w) (fieldKk w))) ∧
    (w &&& 0xF00F = 0x8000 → decodeWord w = .ok (.ldReg (fieldX w) (fieldY w))))

/-- `ADD Vx, kk`: the sum modulo 256; nothing else changes, VF included unless it is Vx. Its words are all of
`7xkk`. -/
def Obligations.AddImmediateWrapsWithoutFlag : Prop :=
  (∀ (s : State) (x : Reg) (kk : Byte),
    ∃ t, exec (.addImm x kk) s = .next t ∧ (t.reg x).toNat = ((s.reg x).toNat + kk.toNat) % 256 ∧ OnlyRegs [x] s t) ∧
  (∀ w : Word, w &&& 0xF000 = 0x7000 → decodeWord w = .ok (.addImm (fieldX w) (fieldKk w)))

/-- `OR`, `AND` and `XOR`: Vx takes the bitwise result, bit by bit; nothing else changes. Their words are all of
`8xy1`, `8xy2` and `8xy3`. -/
def Obligations.LogicIsBitwise : Prop :=
  (∀ (s : State) (x y : Reg),
    (∃ t, exec (.orReg x y) s = .next t ∧
      (∀ k, (t.reg x).getLsbD k = ((s.reg x).getLsbD k || (s.reg y).getLsbD k)) ∧ OnlyRegs [x] s t) ∧
    (∃ t, exec (.andReg x y) s = .next t ∧
      (∀ k, (t.reg x).getLsbD k = ((s.reg x).getLsbD k && (s.reg y).getLsbD k)) ∧ OnlyRegs [x] s t) ∧
    (∃ t, exec (.xorReg x y) s = .next t ∧
      (∀ k, (t.reg x).getLsbD k = ((s.reg x).getLsbD k ^^ (s.reg y).getLsbD k)) ∧ OnlyRegs [x] s t)) ∧
  (∀ w : Word, (w &&& 0xF00F = 0x8001 → decodeWord w = .ok (.orReg (fieldX w) (fieldY w))) ∧
    (w &&& 0xF00F = 0x8002 → decodeWord w = .ok (.andReg (fieldX w) (fieldY w))) ∧
    (w &&& 0xF00F = 0x8003 → decodeWord w = .ok (.xorReg (fieldX w) (fieldY w))))

/-- `ADD Vx, Vy`: Vx the sum modulo 256 of the values before the instruction, then VF the carry, which wins where Vx is
VF; nothing else changes. Its words are all of `8xy4`. -/
def Obligations.AddRegistersSetsCarry : Prop :=
  (∀ (s : State) (x y : Reg),
    ∃ t, exec (.addReg x y) s = .next t ∧
      (x ≠ regF → (t.reg x).toNat = ((s.reg x).toNat + (s.reg y).toNat) % 256) ∧
      t.reg regF = (if (s.reg x).toNat + (s.reg y).toNat > 0xFF then 1 else 0) ∧ OnlyRegs [x, regF] s t) ∧
  (∀ w : Word, w &&& 0xF00F = 0x8004 → decodeWord w = .ok (.addReg (fieldX w) (fieldY w)))

/-- `SUB` and `SUBN`: the difference modulo 256 of the values before the instruction, then VF is 1 exactly when that
difference modulo 256 lies in 1..127, which wins where Vx is VF; nothing else changes. Not a borrow (D14). -/
def Obligations.SubtractionFlagIsSignedPositive : Prop :=
  ∀ (s : State) (x y : Reg),
    let diff := fun a b : Byte => (256 + a.toNat - b.toNat) % 256
    (∃ t, exec (.subReg x y) s = .next t ∧
      (x ≠ regF → (t.reg x).toNat = diff (s.reg x) (s.reg y)) ∧
      t.reg regF = (if 1 ≤ diff (s.reg x) (s.reg y) ∧ diff (s.reg x) (s.reg y) ≤ 127 then 1 else 0) ∧
      OnlyRegs [x, regF] s t) ∧
    (∃ t, exec (.subn x y) s = .next t ∧
      (x ≠ regF → (t.reg x).toNat = diff (s.reg y) (s.reg x)) ∧
      t.reg regF = (if 1 ≤ diff (s.reg y) (s.reg x) ∧ diff (s.reg y) (s.reg x) ≤ 127 then 1 else 0) ∧
      OnlyRegs [x, regF] s t)

/-- `SHR Vx, Vy` with its fall-through into `SUBN`: the closed forms of the table of its rule, case by case; nothing else
changes (D2, D14; the table is marked derived). -/
def Obligations.ShiftRightFallsThroughIntoSubn : Prop :=
  ∀ (s : State) (x y : Reg),
    let a := (s.reg y).toNat
    let inner : Byte := if 1 ≤ a ∧ a ≤ 254 then 1 else 0
    ∃ t, exec (.shr x y) s = .next t ∧ OnlyRegs [x, regF] s t ∧
      (x ≠ y → x ≠ regF → y ≠ regF → (t.reg x).toNat = a - a / 2 ∧ t.reg regF = inner) ∧
      (x = y → x ≠ regF → t.reg x = 0 ∧ t.reg regF = 0) ∧
      (x = regF → y ≠ regF → t.reg regF = inner) ∧
      (y = regF → x ≠ regF → (t.reg x).toNat = a % 2 ∧ (t.reg regF).toNat = a % 2) ∧
      (x = regF → y = regF → t.reg regF = 0)

/-- `SHL Vx, Vy`: VF takes bit 7 of Vy first, then Vx twice Vy modulo 256, Vy read again; the cases with VF as an operand
follow from that order; nothing else changes (D2). -/
def Obligations.ShiftLeftWritesTheFlagFirst : Prop :=
  ∀ (s : State) (x y : Reg),
    let a := (s.reg y).toNat
    ∃ t, exec (.shl x y) s = .next t ∧ OnlyRegs [x, regF] s t ∧
      (x ≠ regF → (t.reg regF).toNat = a / 128) ∧
      (y ≠ regF → (t.reg x).toNat = 2 * a % 256) ∧
      (y = regF → (t.reg x).toNat = 2 * (a / 128))

/-- `RND Vx, kk`: Vx is this step's draw under the mask, so 0 in every bit outside `kk`; the draw is free, and the
statement holds for every value of it (D11, log entry 1); nothing else changes. -/
def Obligations.RandomByteIsMasked : Prop :=
  ∀ (s : State) (x : Reg) (kk : Byte),
    ∃ t, exec (.rnd x kk) s = .next t ∧ t.reg x = Config.rnd s.draws &&& kk ∧
      (∀ k, kk.getLsbD k = false → (t.reg x).getLsbD k = false) ∧ OnlyRegs [x] s t

/-! ## The index register and memory transfer (43_index_memory.md) -/

/-- `LD I, nnn`, `ADD I, Vx` (modulo 2^16, no flag) and `LD F, Vx` (five times Vx, not masked); nothing else changes.
Their words are all of `Annn`, `Fx1E` and `Fx29`. -/
def Obligations.IndexRegisterInstructions : Prop :=
  (∀ (s : State) (nnn : Addr12) (x : Reg),
    (∃ t, exec (.ldI nnn) s = .next t ∧ t.index.toNat = nnn.toNat ∧ OnlyIndex s t) ∧
    (∃ t, exec (.addI x) s = .next t ∧ t.index.toNat = (s.index.toNat + (s.reg x).toNat) % 65536 ∧ OnlyIndex s t) ∧
    (∃ t, exec (.ldFont x) s = .next t ∧ t.index.toNat = (s.reg x).toNat * 5 ∧ OnlyIndex s t)) ∧
  (∀ w : Word, (w &&& 0xF000 = 0xA000 → decodeWord w = .ok (.ldI (fieldNnn w))) ∧
    (w &&& 0xF0FF = 0xF01E → decodeWord w = .ok (.addI (fieldX w))) ∧
    (w &&& 0xF0FF = 0xF029 → decodeWord w = .ok (.ldFont (fieldX w))))

/-- `LD B, Vx` inside memory: the three decimal digits of Vx at I, I + 1 and I + 2, every other byte and everything else
kept, I included; the font and the program are not protected (D4, D18). -/
def Obligations.DecimalDigitsAreStored : Prop :=
  ∀ (s : State) (x : Reg), s.index.toNat + 2 < 4096 →
    ∃ t, exec (.ldBcd x) s = .next t ∧
      (t.byteAt (s.indexed 0)).toNat = (s.reg x).toNat / 100 ∧
      (t.byteAt (s.indexed 1)).toNat = (s.reg x).toNat / 10 % 10 ∧
      (t.byteAt (s.indexed 2)).toNat = (s.reg x).toNat % 10 ∧
      (∀ a, a ≠ s.indexed 0 → a ≠ s.indexed 1 → a ≠ s.indexed 2 → t.byteAt a = s.byteAt a) ∧
      RegsKeptBut [] s t ∧ t = { s with mem := t.mem }

/-- `LD [I], Vx` inside memory: V0..Vx at I..I + x, every other byte kept, I advanced by x + 1 modulo 2^16; everything else
kept (D4, D18). -/
def Obligations.RegistersAreStored : Prop :=
  ∀ (s : State) (x : Reg), s.index.toNat + x.toNat < 4096 →
    ∃ t, exec (.storeRegs x) s = .next t ∧
      (∀ k : Reg, k.toNat ≤ x.toNat → t.byteAt (s.indexed k.toNat) = s.reg k) ∧
      (∀ a, (∀ k, k ≤ x.toNat → a ≠ s.indexed k) → t.byteAt a = s.byteAt a) ∧
      t.index.toNat = (s.index.toNat + x.toNat + 1) % 65536 ∧
      RegsKeptBut [] s t ∧ t = { s with mem := t.mem, index := t.index }

/-- `LD Vx, [I]` inside memory: V0..Vx from I..I + x, every register above Vx kept, and everything else kept, I included
(D4). -/
def Obligations.RegistersAreLoaded : Prop :=
  ∀ (s : State) (x : Reg), s.index.toNat + x.toNat < 4096 →
    ∃ t, exec (.loadRegs x) s = .next t ∧
      (∀ k : Reg, k.toNat ≤ x.toNat → t.reg k = s.byteAt (s.indexed k.toNat)) ∧
      (∀ k : Reg, x.toNat < k.toNat → t.reg k = s.reg k) ∧
      MemoryKept s t ∧ t = { s with v := t.v }

/-- A transfer that touches an address of 4096 or more faults with MEM_OOB and the first such address, and has no effect
(D3, D4). -/
def Obligations.TransfersOutsideMemoryFault : Prop :=
  ∀ (s : State) (x : Reg),
    (4096 ≤ s.index.toNat + 2 → exec (.ldBcd x) s = .fault (.raised (.memOob (max s.index.toNat 4096)))) ∧
    (4096 ≤ s.index.toNat + x.toNat →
      exec (.storeRegs x) s = .fault (.raised (.memOob (max s.index.toNat 4096))) ∧
      exec (.loadRegs x) s = .fault (.raised (.memOob (max s.index.toNat 4096))))

/-! ## The display (44_display.md) -/

/-- `CLS`: every display byte is 0 and the display keeps its size; nothing else changes, VF included. Its word is
`00E0` alone. -/
def Obligations.ClearZeroesTheDisplay : Prop :=
  (∀ s : State, ∃ t, exec .cls s = .next t ∧ t.disp.length = s.build.displayBytes ∧ (∀ b, t.dispByte b = 0) ∧
    OnlyDisplay s t) ∧
  (∀ w : Word, decodeWord w = .ok .cls ↔ w = 0x00E0)

/-- `DRW Vx, Vy, n` with every drawn row inside memory and inside the display: each sprite byte is XORed whole into the
display byte at row Vy + i and column Vx div 8, every other display byte is kept, VF is 1 on a collision and kept
otherwise; everything else is kept. With n = 0 the premises ask nothing of Vx, Vy and I. The display's size is the
invariant's (D7, D8, D9). -/
def Obligations.DrawXorsWholeBytes : Prop :=
  ∀ (s : State) (x y : Reg) (n : Nibble), s.build.wellFormed = true → s.disp.length = s.build.displayBytes →
    (∀ i, i < n.toNat → s.indexed i < 4096 ∧ (s.reg x).toNat < s.build.displayW ∧
      (s.reg y).toNat + i < s.build.displayH) →
    let at_ := fun i => ((s.reg y).toNat + i) * (s.build.displayW / 8) + (s.reg x).toNat / 8
    ∃ t, exec (.drw x y n) s = .next t ∧
      (∀ i, i < n.toNat → t.dispByte (at_ i) = s.dispByte (at_ i) ^^^ s.byteAt (s.indexed i)) ∧
      (∀ b, (∀ i, i < n.toNat → b ≠ at_ i) → t.dispByte b = s.dispByte b) ∧
      t.disp.length = s.disp.length ∧
      ((∃ i, i < n.toNat ∧ s.dispByte (at_ i) &&& s.byteAt (s.indexed i) ≠ 0) → t.reg regF = 1) ∧
      ((∀ i, i < n.toNat → s.dispByte (at_ i) &&& s.byteAt (s.indexed i) = 0) → t.reg regF = s.reg regF) ∧
      RegsKeptBut [regF] s t ∧ MemoryKept s t ∧ t = { s with v := t.v, disp := t.disp }

/-- `DRW Vx, Vy, 0` does nothing at all, whatever Vx, Vy, I and the display hold. -/
def Obligations.DrawOfNoRowsDoesNothing : Prop :=
  ∀ (s : State) (x y : Reg), exec (.drw x y 0) s = .next s

/-- `DRW` faults on its first bad row: with MEM_OOB if that row's sprite byte lies outside memory, and otherwise with
DISPLAY_OOB if the row lies outside the display (D3, D7, D22). -/
def Obligations.DrawOutsideFaultsAtTheFirstRow : Prop :=
  ∀ (s : State) (x y : Reg) (n : Nibble) (k : Nat), k < n.toNat →
    (∀ i, i < k → s.indexed i < 4096 ∧ (s.reg x).toNat < s.build.displayW ∧ (s.reg y).toNat + i < s.build.displayH) →
    (4096 ≤ s.indexed k → exec (.drw x y n) s = .fault (.raised (.memOob (s.indexed k)))) ∧
    (s.indexed k < 4096 → (s.build.displayW ≤ (s.reg x).toNat ∨ s.build.displayH ≤ (s.reg y).toNat + k) →
      exec (.drw x y n) s = .fault (.raised (.displayOob ((s.reg y).toNat + k) ((s.reg x).toNat / 8))))

/-- Drawing the same sprite twice at the same place, VF being no coordinate, restores the display, and leaves VF at 1 if
the sprite has any set bit and as it was if it has none (90_conflicts.md C8; D7, D8). -/
def Obligations.DrawingTwiceRestoresTheDisplay : Prop :=
  ∀ (s : State) (x y : Reg) (n : Nibble), x ≠ regF → y ≠ regF →
    s.build.wellFormed = true → s.disp.length = s.build.displayBytes →
    (∀ i, i < n.toNat → s.indexed i < 4096 ∧ (s.reg x).toNat < s.build.displayW ∧
      (s.reg y).toNat + i < s.build.displayH) →
    ∃ t u, exec (.drw x y n) s = .next t ∧ exec (.drw x y n) t = .next u ∧ u.disp = s.disp ∧
      ((∃ i, i < n.toNat ∧ s.byteAt (s.indexed i) ≠ 0) → u.reg regF = 1) ∧
      ((∀ i, i < n.toNat → s.byteAt (s.indexed i) = 0) → u.reg regF = s.reg regF)

/-! ## Keyboard and timers (45_keys_timers.md) -/

/-- `SKP Vx` skips exactly when key Vx is held, never for a Vx of 16 or more; `SKNP Vx` skips exactly when some key with an
index above Vx is held; nothing else changes (D12, D13). -/
def Obligations.KeyTestsSkip : Prop :=
  ∀ (s : State) (x : Reg),
    (∃ t, exec (.skp x) s = .next t ∧ OnlyPc s t ∧
      (((s.reg x).toNat < 16 ∧ s.kb.getLsbD (s.reg x).toNat = true) → t.pc = s.pc + 2) ∧
      (¬ ((s.reg x).toNat < 16 ∧ s.kb.getLsbD (s.reg x).toNat = true) → t.pc = s.pc)) ∧
    (∃ t, exec (.sknp x) s = .next t ∧ OnlyPc s t ∧
      ((∃ k, (s.reg x).toNat < k ∧ k < 16 ∧ s.kb.getLsbD k = true) → t.pc = s.pc + 2) ∧
      ((∀ k, (s.reg x).toNat < k → k < 16 → s.kb.getLsbD k = false) → t.pc = s.pc))

/-- `LD Vx, DT`: Vx is DT as it is before the step's countdown; nothing else changes. Its words are all of `Fx07`. -/
def Obligations.DelayTimerIsRead : Prop :=
  (∀ (s : State) (x : Reg), ∃ t, exec (.ldVxDt x) s = .next t ∧ t.reg x = s.dt ∧ OnlyRegs [x] s t) ∧
  (∀ w : Word, w &&& 0xF0FF = 0xF007 → decodeWord w = .ok (.ldVxDt (fieldX w)))

/-- `LD DT, Vx` and `LD ST, Vx`: the timer takes Vx, before the step's countdown; nothing else changes (D25, D27). -/
def Obligations.TimersAreSet : Prop :=
  ∀ (s : State) (x : Reg),
    (∃ t, exec (.ldDtVx x) s = .next t ∧ t.dt = s.reg x ∧ OnlyDt s t) ∧
    (∃ t, exec (.ldStVx x) s = .next t ∧ t.st = s.reg x ∧ OnlySt s t)

/-- `LD Vx, K`: PC goes back by 2, to the instruction's own address, whatever the keyboard holds; Vx is not written and
nothing else changes. -/
def Obligations.KeyWaitRewinds : Prop :=
  ∀ (s : State) (x : Reg), ∃ t, exec (.ldVxKey x) s = .next t ∧ t.pc = s.pc - 2 ∧ OnlyPc s t

/-- A running core that has `LD Vx, K` at PC never leaves it: every sequence of steps, key events and reads can be driven,
and after it PC is the same, the core still runs, every register and all of memory are kept, and every one of the steps has
counted a tick. -/
def Obligations.KeyWaitNeverEnds : Prop :=
  ∀ (d : Session) (w : Word) (x : Reg) (ops : List DriverOp), d.core.fault = none → fetch d.core = .ok w →
    decodeWord w = .ok (.ldVxKey x) → .reset ∉ ops → (∀ image, .load image ∉ ops) →
    ∃ e, d.driveAll ops = some e ∧ e.core.pc = d.core.pc ∧ e.core.fault = none ∧ e.core.v = d.core.v ∧
      e.core.mem = d.core.mem ∧ e.core.ticks = d.core.ticks + BitVec.ofNat 64 (ops.count .step)

/-! ## The driver's operations (50_interface.md, 70_reset_and_hazards.md) -/

/-- After reset every element holds its reset value, whatever the state before, faulted or not; the build is kept (log entry
2) and FONT is the build's; a load is open again. That the record is cleared and the display's size kept is D26. The draw
counter is the model's own (log entry 1). -/
def Obligations.ResetRestoresEveryElement : Prop :=
  ∀ d : Session, ∃ t, d.drive .reset = some ⟨t, true⟩ ∧
    (∀ x, t.reg x = 0) ∧ t.index = 0 ∧ t.pc = 0x200 ∧ t.sp = 0 ∧ (∀ j, t.slot j = 0) ∧ t.dt = 0 ∧ t.st = 0 ∧ t.kb = 0 ∧
    t.disp.length = d.core.build.displayBytes ∧ (∀ b, t.dispByte b = 0) ∧ t.ticks = 0 ∧ t.fault = none ∧
    (∀ (g : Fin 16) (k : Fin 5), t.byteAt (5 * g.val + k.val) = d.core.build.font[g.val][k.val]) ∧
    (∀ a, 80 ≤ a → a < 4096 → t.byteAt a = 0) ∧ t.build = d.core.build

/-- `load(image)` while a load is open: at most 3584 bytes go to 0x200 on, every other byte and all else kept, and no second
load is open; a longer image fails, which is reported, and leaves the session unmodified (D20, D24; that a load is still
open after one that failed is the model's choice, log entry 5). -/
def Obligations.LoadPlacesTheImage : Prop :=
  (∀ (d : Session) (image : List Byte), d.mayLoad = true → image.length ≤ 3584 →
    ∃ t, d.drive (.load image) = some ⟨t, false⟩ ∧ d.reply (.load image) = .loadReport true ∧
      (∀ j, (h : j < image.length) → t.byteAt (0x200 + j) = image[j]) ∧
      (∀ a, (∀ j, j < image.length → a ≠ 0x200 + j) → t.byteAt a = d.core.byteAt a) ∧
      RegsKeptBut [] d.core t ∧ t = { d.core with mem := t.mem }) ∧
  (∀ (d : Session) (image : List Byte), d.mayLoad = true → 3584 < image.length →
    d.drive (.load image) = some d ∧ d.reply (.load image) = .loadReport false)

/-- The driver loads once after a reset, before the first step: a step and a load that succeeds close the load, and while it
is closed no sequence of driver operations without a reset holds a load, whatever else is in it (D20). -/
def Obligations.LoadIsOpenOnlyBeforeTheFirstStep : Prop :=
  (∀ d e : Session, d.drive .step = some e → e.mayLoad = false) ∧
  (∀ (d e : Session) (image : List Byte), image.length ≤ 3584 → d.drive (.load image) = some e → e.mayLoad = false) ∧
  (∀ (ops : List DriverOp) (d e : Session), d.mayLoad = false → .reset ∉ ops → d.driveAll ops = some e →
    e.mayLoad = false ∧ ∀ image, .load image ∉ ops)

/-- The driver writes the core in no other way: every operation but a step and a reset leaves registers, PC, I, SP, the
stack, the timers, the display, ticks and the record; a key event writes the keyboard alone, a load memory alone, and a read
nothing (D20). -/
def Obligations.DriverWritesOnlyKeysAndImage : Prop :=
  ∀ (d e : Session) (op : DriverOp), d.drive op = some e → op ≠ .step → op ≠ .reset →
    e.core = { d.core with kb := e.core.kb, mem := e.core.mem } ∧
    (e.core.kb ≠ d.core.kb → ∃ k, op = .keyPress k ∨ op = .keyRelease k) ∧
    (e.core.mem ≠ d.core.mem → d.mayLoad = true ∧ ∃ image, op = .load image) ∧
    (op = .readDisplay ∨ op = .readDiag ∨ op = .readFault → e = d)

/-- The three reads return the display bytes, the diagnostic values and the fault record (D23, D29). -/
def Obligations.ReadsReturnTheValues : Prop :=
  ∀ d : Session, d.reply .readDisplay = .display d.core.disp ∧
    d.reply .readDiag =
      .diag ⟨d.core.v, d.core.index, d.core.pc, d.core.sp, d.core.dt, d.core.st, d.core.ticks⟩ ∧
    d.reply .readFault = .fault d.core.fault ∧
    d.drive .readDisplay = some d ∧ d.drive .readDiag = some d ∧ d.drive .readFault = some d

/-- `key_press(k)` sets bit k and `key_release(k)` clears it, for k below 16, every other key kept; for any other k nothing
changes; and a press followed by a release restores the mask exactly when the key was not held (D19, 90_conflicts.md C4). -/
def Obligations.KeyEventsSetAndClear : Prop :=
  ∀ (d : Session) (k : Nat), ∃ p r q, d.drive (.keyPress k) = some p ∧ d.drive (.keyRelease k) = some r ∧
    p.drive (.keyRelease k) = some q ∧
    (16 ≤ k → p = d ∧ r = d) ∧
    (k < 16 →
      (∀ j, j < 16 → p.core.kb.getLsbD j = (if j = k then true else d.core.kb.getLsbD j)) ∧
      (∀ j, j < 16 → r.core.kb.getLsbD j = (if j = k then false else d.core.kb.getLsbD j)) ∧
      (q.core.kb = d.core.kb ↔ d.core.kb.getLsbD k = false)) ∧
    p = { d with core := { d.core with kb := p.core.kb } } ∧ r = { d with core := { d.core with kb := r.core.kb } }
end

