-- ==== Sys2Proof/Laws/State.lean ====
section
/-! SUPPORT. What each update of the state does to each field, and to the reads of a register, a slot, a byte of memory
and a byte of the display that it leaves alone: one lemma each, true by rfl, so that no proof unfolds a record update. -/

namespace Sys2Proof.Machine

/-! ### setReg -/

@[simp] theorem State.setReg_v (s : State) (x : Reg) (b : Byte) : (s.setReg x b).v = s.v.set x.toNat b x.isLt := rfl
@[simp] theorem State.setReg_index (s : State) (x : Reg) (b : Byte) : (s.setReg x b).index = s.index := rfl
@[simp] theorem State.setReg_pc (s : State) (x : Reg) (b : Byte) : (s.setReg x b).pc = s.pc := rfl
@[simp] theorem State.setReg_sp (s : State) (x : Reg) (b : Byte) : (s.setReg x b).sp = s.sp := rfl
@[simp] theorem State.setReg_stack (s : State) (x : Reg) (b : Byte) : (s.setReg x b).stack = s.stack := rfl
@[simp] theorem State.setReg_dt (s : State) (x : Reg) (b : Byte) : (s.setReg x b).dt = s.dt := rfl
@[simp] theorem State.setReg_st (s : State) (x : Reg) (b : Byte) : (s.setReg x b).st = s.st := rfl
@[simp] theorem State.setReg_kb (s : State) (x : Reg) (b : Byte) : (s.setReg x b).kb = s.kb := rfl
@[simp] theorem State.setReg_disp (s : State) (x : Reg) (b : Byte) : (s.setReg x b).disp = s.disp := rfl
@[simp] theorem State.setReg_ticks (s : State) (x : Reg) (b : Byte) : (s.setReg x b).ticks = s.ticks := rfl
@[simp] theorem State.setReg_mem (s : State) (x : Reg) (b : Byte) : (s.setReg x b).mem = s.mem := rfl
@[simp] theorem State.setReg_fault (s : State) (x : Reg) (b : Byte) : (s.setReg x b).fault = s.fault := rfl
@[simp] theorem State.setReg_build (s : State) (x : Reg) (b : Byte) : (s.setReg x b).build = s.build := rfl
@[simp] theorem State.setReg_draws (s : State) (x : Reg) (b : Byte) : (s.setReg x b).draws = s.draws := rfl
@[simp] theorem State.setReg_slot (s : State) (x : Reg) (b : Byte) (k : Nat) : (s.setReg x b).slot k = s.slot k := rfl
@[simp] theorem State.setReg_byteAt (s : State) (x : Reg) (b : Byte) (c : Nat) : (s.setReg x b).byteAt c = s.byteAt c := rfl
@[simp] theorem State.setReg_dispByte (s : State) (x : Reg) (b : Byte) (c : Nat) : (s.setReg x b).dispByte c = s.dispByte c := rfl

/-! ### setIndex -/

@[simp] theorem State.setIndex_v (s : State) (w : Word) : (s.setIndex w).v = s.v := rfl
@[simp] theorem State.setIndex_index (s : State) (w : Word) : (s.setIndex w).index = w := rfl
@[simp] theorem State.setIndex_pc (s : State) (w : Word) : (s.setIndex w).pc = s.pc := rfl
@[simp] theorem State.setIndex_sp (s : State) (w : Word) : (s.setIndex w).sp = s.sp := rfl
@[simp] theorem State.setIndex_stack (s : State) (w : Word) : (s.setIndex w).stack = s.stack := rfl
@[simp] theorem State.setIndex_dt (s : State) (w : Word) : (s.setIndex w).dt = s.dt := rfl
@[simp] theorem State.setIndex_st (s : State) (w : Word) : (s.setIndex w).st = s.st := rfl
@[simp] theorem State.setIndex_kb (s : State) (w : Word) : (s.setIndex w).kb = s.kb := rfl
@[simp] theorem State.setIndex_disp (s : State) (w : Word) : (s.setIndex w).disp = s.disp := rfl
@[simp] theorem State.setIndex_ticks (s : State) (w : Word) : (s.setIndex w).ticks = s.ticks := rfl
@[simp] theorem State.setIndex_mem (s : State) (w : Word) : (s.setIndex w).mem = s.mem := rfl
@[simp] theorem State.setIndex_fault (s : State) (w : Word) : (s.setIndex w).fault = s.fault := rfl
@[simp] theorem State.setIndex_build (s : State) (w : Word) : (s.setIndex w).build = s.build := rfl
@[simp] theorem State.setIndex_draws (s : State) (w : Word) : (s.setIndex w).draws = s.draws := rfl
@[simp] theorem State.setIndex_reg (s : State) (w : Word) (y : Reg) : (s.setIndex w).reg y = s.reg y := rfl
@[simp] theorem State.setIndex_slot (s : State) (w : Word) (k : Nat) : (s.setIndex w).slot k = s.slot k := rfl
@[simp] theorem State.setIndex_byteAt (s : State) (w : Word) (c : Nat) : (s.setIndex w).byteAt c = s.byteAt c := rfl
@[simp] theorem State.setIndex_dispByte (s : State) (w : Word) (c : Nat) : (s.setIndex w).dispByte c = s.dispByte c := rfl

/-! ### setPc -/

@[simp] theorem State.setPc_v (s : State) (w : Word) : (s.setPc w).v = s.v := rfl
@[simp] theorem State.setPc_index (s : State) (w : Word) : (s.setPc w).index = s.index := rfl
@[simp] theorem State.setPc_pc (s : State) (w : Word) : (s.setPc w).pc = w := rfl
@[simp] theorem State.setPc_sp (s : State) (w : Word) : (s.setPc w).sp = s.sp := rfl
@[simp] theorem State.setPc_stack (s : State) (w : Word) : (s.setPc w).stack = s.stack := rfl
@[simp] theorem State.setPc_dt (s : State) (w : Word) : (s.setPc w).dt = s.dt := rfl
@[simp] theorem State.setPc_st (s : State) (w : Word) : (s.setPc w).st = s.st := rfl
@[simp] theorem State.setPc_kb (s : State) (w : Word) : (s.setPc w).kb = s.kb := rfl
@[simp] theorem State.setPc_disp (s : State) (w : Word) : (s.setPc w).disp = s.disp := rfl
@[simp] theorem State.setPc_ticks (s : State) (w : Word) : (s.setPc w).ticks = s.ticks := rfl
@[simp] theorem State.setPc_mem (s : State) (w : Word) : (s.setPc w).mem = s.mem := rfl
@[simp] theorem State.setPc_fault (s : State) (w : Word) : (s.setPc w).fault = s.fault := rfl
@[simp] theorem State.setPc_build (s : State) (w : Word) : (s.setPc w).build = s.build := rfl
@[simp] theorem State.setPc_draws (s : State) (w : Word) : (s.setPc w).draws = s.draws := rfl
@[simp] theorem State.setPc_reg (s : State) (w : Word) (y : Reg) : (s.setPc w).reg y = s.reg y := rfl
@[simp] theorem State.setPc_slot (s : State) (w : Word) (k : Nat) : (s.setPc w).slot k = s.slot k := rfl
@[simp] theorem State.setPc_byteAt (s : State) (w : Word) (c : Nat) : (s.setPc w).byteAt c = s.byteAt c := rfl
@[simp] theorem State.setPc_dispByte (s : State) (w : Word) (c : Nat) : (s.setPc w).dispByte c = s.dispByte c := rfl

/-! ### setSp -/

@[simp] theorem State.setSp_v (s : State) (b : Byte) : (s.setSp b).v = s.v := rfl
@[simp] theorem State.setSp_index (s : State) (b : Byte) : (s.setSp b).index = s.index := rfl
@[simp] theorem State.setSp_pc (s : State) (b : Byte) : (s.setSp b).pc = s.pc := rfl
@[simp] theorem State.setSp_sp (s : State) (b : Byte) : (s.setSp b).sp = b := rfl
@[simp] theorem State.setSp_stack (s : State) (b : Byte) : (s.setSp b).stack = s.stack := rfl
@[simp] theorem State.setSp_dt (s : State) (b : Byte) : (s.setSp b).dt = s.dt := rfl
@[simp] theorem State.setSp_st (s : State) (b : Byte) : (s.setSp b).st = s.st := rfl
@[simp] theorem State.setSp_kb (s : State) (b : Byte) : (s.setSp b).kb = s.kb := rfl
@[simp] theorem State.setSp_disp (s : State) (b : Byte) : (s.setSp b).disp = s.disp := rfl
@[simp] theorem State.setSp_ticks (s : State) (b : Byte) : (s.setSp b).ticks = s.ticks := rfl
@[simp] theorem State.setSp_mem (s : State) (b : Byte) : (s.setSp b).mem = s.mem := rfl
@[simp] theorem State.setSp_fault (s : State) (b : Byte) : (s.setSp b).fault = s.fault := rfl
@[simp] theorem State.setSp_build (s : State) (b : Byte) : (s.setSp b).build = s.build := rfl
@[simp] theorem State.setSp_draws (s : State) (b : Byte) : (s.setSp b).draws = s.draws := rfl
@[simp] theorem State.setSp_reg (s : State) (b : Byte) (y : Reg) : (s.setSp b).reg y = s.reg y := rfl
@[simp] theorem State.setSp_slot (s : State) (b : Byte) (k : Nat) : (s.setSp b).slot k = s.slot k := rfl
@[simp] theorem State.setSp_byteAt (s : State) (b : Byte) (c : Nat) : (s.setSp b).byteAt c = s.byteAt c := rfl
@[simp] theorem State.setSp_dispByte (s : State) (b : Byte) (c : Nat) : (s.setSp b).dispByte c = s.dispByte c := rfl

/-! ### setDt -/

@[simp] theorem State.setDt_v (s : State) (b : Byte) : (s.setDt b).v = s.v := rfl
@[simp] theorem State.setDt_index (s : State) (b : Byte) : (s.setDt b).index = s.index := rfl
@[simp] theorem State.setDt_pc (s : State) (b : Byte) : (s.setDt b).pc = s.pc := rfl
@[simp] theorem State.setDt_sp (s : State) (b : Byte) : (s.setDt b).sp = s.sp := rfl
@[simp] theorem State.setDt_stack (s : State) (b : Byte) : (s.setDt b).stack = s.stack := rfl
@[simp] theorem State.setDt_dt (s : State) (b : Byte) : (s.setDt b).dt = b := rfl
@[simp] theorem State.setDt_st (s : State) (b : Byte) : (s.setDt b).st = s.st := rfl
@[simp] theorem State.setDt_kb (s : State) (b : Byte) : (s.setDt b).kb = s.kb := rfl
@[simp] theorem State.setDt_disp (s : State) (b : Byte) : (s.setDt b).disp = s.disp := rfl
@[simp] theorem State.setDt_ticks (s : State) (b : Byte) : (s.setDt b).ticks = s.ticks := rfl
@[simp] theorem State.setDt_mem (s : State) (b : Byte) : (s.setDt b).mem = s.mem := rfl
@[simp] theorem State.setDt_fault (s : State) (b : Byte) : (s.setDt b).fault = s.fault := rfl
@[simp] theorem State.setDt_build (s : State) (b : Byte) : (s.setDt b).build = s.build := rfl
@[simp] theorem State.setDt_draws (s : State) (b : Byte) : (s.setDt b).draws = s.draws := rfl
@[simp] theorem State.setDt_reg (s : State) (b : Byte) (y : Reg) : (s.setDt b).reg y = s.reg y := rfl
@[simp] theorem State.setDt_slot (s : State) (b : Byte) (k : Nat) : (s.setDt b).slot k = s.slot k := rfl
@[simp] theorem State.setDt_byteAt (s : State) (b : Byte) (c : Nat) : (s.setDt b).byteAt c = s.byteAt c := rfl
@[simp] theorem State.setDt_dispByte (s : State) (b : Byte) (c : Nat) : (s.setDt b).dispByte c = s.dispByte c := rfl

/-! ### setSt -/

@[simp] theorem State.setSt_v (s : State) (b : Byte) : (s.setSt b).v = s.v := rfl
@[simp] theorem State.setSt_index (s : State) (b : Byte) : (s.setSt b).index = s.index := rfl
@[simp] theorem State.setSt_pc (s : State) (b : Byte) : (s.setSt b).pc = s.pc := rfl
@[simp] theorem State.setSt_sp (s : State) (b : Byte) : (s.setSt b).sp = s.sp := rfl
@[simp] theorem State.setSt_stack (s : State) (b : Byte) : (s.setSt b).stack = s.stack := rfl
@[simp] theorem State.setSt_dt (s : State) (b : Byte) : (s.setSt b).dt = s.dt := rfl
@[simp] theorem State.setSt_st (s : State) (b : Byte) : (s.setSt b).st = b := rfl
@[simp] theorem State.setSt_kb (s : State) (b : Byte) : (s.setSt b).kb = s.kb := rfl
@[simp] theorem State.setSt_disp (s : State) (b : Byte) : (s.setSt b).disp = s.disp := rfl
@[simp] theorem State.setSt_ticks (s : State) (b : Byte) : (s.setSt b).ticks = s.ticks := rfl
@[simp] theorem State.setSt_mem (s : State) (b : Byte) : (s.setSt b).mem = s.mem := rfl
@[simp] theorem State.setSt_fault (s : State) (b : Byte) : (s.setSt b).fault = s.fault := rfl
@[simp] theorem State.setSt_build (s : State) (b : Byte) : (s.setSt b).build = s.build := rfl
@[simp] theorem State.setSt_draws (s : State) (b : Byte) : (s.setSt b).draws = s.draws := rfl
@[simp] theorem State.setSt_reg (s : State) (b : Byte) (y : Reg) : (s.setSt b).reg y = s.reg y := rfl
@[simp] theorem State.setSt_slot (s : State) (b : Byte) (k : Nat) : (s.setSt b).slot k = s.slot k := rfl
@[simp] theorem State.setSt_byteAt (s : State) (b : Byte) (c : Nat) : (s.setSt b).byteAt c = s.byteAt c := rfl
@[simp] theorem State.setSt_dispByte (s : State) (b : Byte) (c : Nat) : (s.setSt b).dispByte c = s.dispByte c := rfl

/-! ### setSlot -/

@[simp] theorem State.setSlot_v (s : State) (j : Nat) (w : Word) : (s.setSlot j w).v = s.v := rfl
@[simp] theorem State.setSlot_index (s : State) (j : Nat) (w : Word) : (s.setSlot j w).index = s.index := rfl
@[simp] theorem State.setSlot_pc (s : State) (j : Nat) (w : Word) : (s.setSlot j w).pc = s.pc := rfl
@[simp] theorem State.setSlot_sp (s : State) (j : Nat) (w : Word) : (s.setSlot j w).sp = s.sp := rfl
@[simp] theorem State.setSlot_stack (s : State) (j : Nat) (w : Word) : (s.setSlot j w).stack = s.stack.setIfInBounds j w := rfl
@[simp] theorem State.setSlot_dt (s : State) (j : Nat) (w : Word) : (s.setSlot j w).dt = s.dt := rfl
@[simp] theorem State.setSlot_st (s : State) (j : Nat) (w : Word) : (s.setSlot j w).st = s.st := rfl
@[simp] theorem State.setSlot_kb (s : State) (j : Nat) (w : Word) : (s.setSlot j w).kb = s.kb := rfl
@[simp] theorem State.setSlot_disp (s : State) (j : Nat) (w : Word) : (s.setSlot j w).disp = s.disp := rfl
@[simp] theorem State.setSlot_ticks (s : State) (j : Nat) (w : Word) : (s.setSlot j w).ticks = s.ticks := rfl
@[simp] theorem State.setSlot_mem (s : State) (j : Nat) (w : Word) : (s.setSlot j w).mem = s.mem := rfl
@[simp] theorem State.setSlot_fault (s : State) (j : Nat) (w : Word) : (s.setSlot j w).fault = s.fault := rfl
@[simp] theorem State.setSlot_build (s : State) (j : Nat) (w : Word) : (s.setSlot j w).build = s.build := rfl
@[simp] theorem State.setSlot_draws (s : State) (j : Nat) (w : Word) : (s.setSlot j w).draws = s.draws := rfl
@[simp] theorem State.setSlot_reg (s : State) (j : Nat) (w : Word) (y : Reg) : (s.setSlot j w).reg y = s.reg y := rfl
@[simp] theorem State.setSlot_byteAt (s : State) (j : Nat) (w : Word) (c : Nat) : (s.setSlot j w).byteAt c = s.byteAt c := rfl
@[simp] theorem State.setSlot_dispByte (s : State) (j : Nat) (w : Word) (c : Nat) : (s.setSlot j w).dispByte c = s.dispByte c := rfl

/-! ### setByte -/

@[simp] theorem State.setByte_v (s : State) (a : Nat) (b : Byte) : (s.setByte a b).v = s.v := rfl
@[simp] theorem State.setByte_index (s : State) (a : Nat) (b : Byte) : (s.setByte a b).index = s.index := rfl
@[simp] theorem State.setByte_pc (s : State) (a : Nat) (b : Byte) : (s.setByte a b).pc = s.pc := rfl
@[simp] theorem State.setByte_sp (s : State) (a : Nat) (b : Byte) : (s.setByte a b).sp = s.sp := rfl
@[simp] theorem State.setByte_stack (s : State) (a : Nat) (b : Byte) : (s.setByte a b).stack = s.stack := rfl
@[simp] theorem State.setByte_dt (s : State) (a : Nat) (b : Byte) : (s.setByte a b).dt = s.dt := rfl
@[simp] theorem State.setByte_st (s : State) (a : Nat) (b : Byte) : (s.setByte a b).st = s.st := rfl
@[simp] theorem State.setByte_kb (s : State) (a : Nat) (b : Byte) : (s.setByte a b).kb = s.kb := rfl
@[simp] theorem State.setByte_disp (s : State) (a : Nat) (b : Byte) : (s.setByte a b).disp = s.disp := rfl
@[simp] theorem State.setByte_ticks (s : State) (a : Nat) (b : Byte) : (s.setByte a b).ticks = s.ticks := rfl
@[simp] theorem State.setByte_mem (s : State) (a : Nat) (b : Byte) : (s.setByte a b).mem = Mem.write s.build.font s.mem a b := rfl
@[simp] theorem State.setByte_fault (s : State) (a : Nat) (b : Byte) : (s.setByte a b).fault = s.fault := rfl
@[simp] theorem State.setByte_build (s : State) (a : Nat) (b : Byte) : (s.setByte a b).build = s.build := rfl
@[simp] theorem State.setByte_draws (s : State) (a : Nat) (b : Byte) : (s.setByte a b).draws = s.draws := rfl
@[simp] theorem State.setByte_reg (s : State) (a : Nat) (b : Byte) (y : Reg) : (s.setByte a b).reg y = s.reg y := rfl
@[simp] theorem State.setByte_slot (s : State) (a : Nat) (b : Byte) (k : Nat) : (s.setByte a b).slot k = s.slot k := rfl
@[simp] theorem State.setByte_dispByte (s : State) (a : Nat) (b : Byte) (c : Nat) : (s.setByte a b).dispByte c = s.dispByte c := rfl

/-! ### setDisp -/

@[simp] theorem State.setDisp_v (s : State) (d : List Byte) : (s.setDisp d).v = s.v := rfl
@[simp] theorem State.setDisp_index (s : State) (d : List Byte) : (s.setDisp d).index = s.index := rfl
@[simp] theorem State.setDisp_pc (s : State) (d : List Byte) : (s.setDisp d).pc = s.pc := rfl
@[simp] theorem State.setDisp_sp (s : State) (d : List Byte) : (s.setDisp d).sp = s.sp := rfl
@[simp] theorem State.setDisp_stack (s : State) (d : List Byte) : (s.setDisp d).stack = s.stack := rfl
@[simp] theorem State.setDisp_dt (s : State) (d : List Byte) : (s.setDisp d).dt = s.dt := rfl
@[simp] theorem State.setDisp_st (s : State) (d : List Byte) : (s.setDisp d).st = s.st := rfl
@[simp] theorem State.setDisp_kb (s : State) (d : List Byte) : (s.setDisp d).kb = s.kb := rfl
@[simp] theorem State.setDisp_disp (s : State) (d : List Byte) : (s.setDisp d).disp = d := rfl
@[simp] theorem State.setDisp_ticks (s : State) (d : List Byte) : (s.setDisp d).ticks = s.ticks := rfl
@[simp] theorem State.setDisp_mem (s : State) (d : List Byte) : (s.setDisp d).mem = s.mem := rfl
@[simp] theorem State.setDisp_fault (s : State) (d : List Byte) : (s.setDisp d).fault = s.fault := rfl
@[simp] theorem State.setDisp_build (s : State) (d : List Byte) : (s.setDisp d).build = s.build := rfl
@[simp] theorem State.setDisp_draws (s : State) (d : List Byte) : (s.setDisp d).draws = s.draws := rfl
@[simp] theorem State.setDisp_reg (s : State) (d : List Byte) (y : Reg) : (s.setDisp d).reg y = s.reg y := rfl
@[simp] theorem State.setDisp_slot (s : State) (d : List Byte) (k : Nat) : (s.setDisp d).slot k = s.slot k := rfl
@[simp] theorem State.setDisp_byteAt (s : State) (d : List Byte) (c : Nat) : (s.setDisp d).byteAt c = s.byteAt c := rfl

/-! ### preAdvance -/

@[simp] theorem State.preAdvance_v (s : State) : s.preAdvance.v = s.v := rfl
@[simp] theorem State.preAdvance_index (s : State) : s.preAdvance.index = s.index := rfl
@[simp] theorem State.preAdvance_pc (s : State) : s.preAdvance.pc = s.pc + 2 := rfl
@[simp] theorem State.preAdvance_sp (s : State) : s.preAdvance.sp = s.sp := rfl
@[simp] theorem State.preAdvance_stack (s : State) : s.preAdvance.stack = s.stack := rfl
@[simp] theorem State.preAdvance_dt (s : State) : s.preAdvance.dt = s.dt := rfl
@[simp] theorem State.preAdvance_st (s : State) : s.preAdvance.st = s.st := rfl
@[simp] theorem State.preAdvance_kb (s : State) : s.preAdvance.kb = s.kb := rfl
@[simp] theorem State.preAdvance_disp (s : State) : s.preAdvance.disp = s.disp := rfl
@[simp] theorem State.preAdvance_ticks (s : State) : s.preAdvance.ticks = s.ticks := rfl
@[simp] theorem State.preAdvance_mem (s : State) : s.preAdvance.mem = s.mem := rfl
@[simp] theorem State.preAdvance_fault (s : State) : s.preAdvance.fault = s.fault := rfl
@[simp] theorem State.preAdvance_build (s : State) : s.preAdvance.build = s.build := rfl
@[simp] theorem State.preAdvance_draws (s : State) : s.preAdvance.draws = s.draws := rfl
@[simp] theorem State.preAdvance_reg (s : State) (y : Reg) : s.preAdvance.reg y = s.reg y := rfl
@[simp] theorem State.preAdvance_slot (s : State) (k : Nat) : s.preAdvance.slot k = s.slot k := rfl
@[simp] theorem State.preAdvance_byteAt (s : State) (c : Nat) : s.preAdvance.byteAt c = s.byteAt c := rfl
@[simp] theorem State.preAdvance_dispByte (s : State) (c : Nat) : s.preAdvance.dispByte c = s.dispByte c := rfl

/-! ### skip -/

@[simp] theorem State.skip_v (s : State) : s.skip.v = s.v := rfl
@[simp] theorem State.skip_index (s : State) : s.skip.index = s.index := rfl
@[simp] theorem State.skip_pc (s : State) : s.skip.pc = s.pc + 2 := rfl
@[simp] theorem State.skip_sp (s : State) : s.skip.sp = s.sp := rfl
@[simp] theorem State.skip_stack (s : State) : s.skip.stack = s.stack := rfl
@[simp] theorem State.skip_dt (s : State) : s.skip.dt = s.dt := rfl
@[simp] theorem State.skip_st (s : State) : s.skip.st = s.st := rfl
@[simp] theorem State.skip_kb (s : State) : s.skip.kb = s.kb := rfl
@[simp] theorem State.skip_disp (s : State) : s.skip.disp = s.disp := rfl
@[simp] theorem State.skip_ticks (s : State) : s.skip.ticks = s.ticks := rfl
@[simp] theorem State.skip_mem (s : State) : s.skip.mem = s.mem := rfl
@[simp] theorem State.skip_fault (s : State) : s.skip.fault = s.fault := rfl
@[simp] theorem State.skip_build (s : State) : s.skip.build = s.build := rfl
@[simp] theorem State.skip_draws (s : State) : s.skip.draws = s.draws := rfl
@[simp] theorem State.skip_reg (s : State) (y : Reg) : s.skip.reg y = s.reg y := rfl
@[simp] theorem State.skip_slot (s : State) (k : Nat) : s.skip.slot k = s.slot k := rfl
@[simp] theorem State.skip_byteAt (s : State) (c : Nat) : s.skip.byteAt c = s.byteAt c := rfl
@[simp] theorem State.skip_dispByte (s : State) (c : Nat) : s.skip.dispByte c = s.dispByte c := rfl

/-! ### endStep -/

@[simp] theorem State.endStep_v (s : State) : s.endStep.v = s.v := rfl
@[simp] theorem State.endStep_index (s : State) : s.endStep.index = s.index := rfl
@[simp] theorem State.endStep_pc (s : State) : s.endStep.pc = s.pc := rfl
@[simp] theorem State.endStep_sp (s : State) : s.endStep.sp = s.sp := rfl
@[simp] theorem State.endStep_stack (s : State) : s.endStep.stack = s.stack := rfl
@[simp] theorem State.endStep_dt (s : State) : s.endStep.dt = countDown s.dt := rfl
@[simp] theorem State.endStep_st (s : State) : s.endStep.st = countDown s.st := rfl
@[simp] theorem State.endStep_kb (s : State) : s.endStep.kb = s.kb := rfl
@[simp] theorem State.endStep_disp (s : State) : s.endStep.disp = s.disp := rfl
@[simp] theorem State.endStep_ticks (s : State) : s.endStep.ticks = s.ticks + 1 := rfl
@[simp] theorem State.endStep_mem (s : State) : s.endStep.mem = s.mem := rfl
@[simp] theorem State.endStep_fault (s : State) : s.endStep.fault = s.fault := rfl
@[simp] theorem State.endStep_build (s : State) : s.endStep.build = s.build := rfl
@[simp] theorem State.endStep_draws (s : State) : s.endStep.draws = s.draws + 1 := rfl
@[simp] theorem State.endStep_reg (s : State) (y : Reg) : s.endStep.reg y = s.reg y := rfl
@[simp] theorem State.endStep_slot (s : State) (k : Nat) : s.endStep.slot k = s.slot k := rfl
@[simp] theorem State.endStep_byteAt (s : State) (c : Nat) : s.endStep.byteAt c = s.byteAt c := rfl
@[simp] theorem State.endStep_dispByte (s : State) (c : Nat) : s.endStep.dispByte c = s.dispByte c := rfl

/-! ### takeFault -/

@[simp] theorem State.takeFault_v (s : State) (w : Option Word) (c : Cause) : (s.takeFault w c).v = s.v := rfl
@[simp] theorem State.takeFault_index (s : State) (w : Option Word) (c : Cause) : (s.takeFault w c).index = s.index := rfl
@[simp] theorem State.takeFault_pc (s : State) (w : Option Word) (c : Cause) : (s.takeFault w c).pc = s.pc := rfl
@[simp] theorem State.takeFault_sp (s : State) (w : Option Word) (c : Cause) : (s.takeFault w c).sp = s.sp := rfl
@[simp] theorem State.takeFault_stack (s : State) (w : Option Word) (c : Cause) : (s.takeFault w c).stack = s.stack := rfl
@[simp] theorem State.takeFault_dt (s : State) (w : Option Word) (c : Cause) : (s.takeFault w c).dt = s.dt := rfl
@[simp] theorem State.takeFault_st (s : State) (w : Option Word) (c : Cause) : (s.takeFault w c).st = s.st := rfl
@[simp] theorem State.takeFault_kb (s : State) (w : Option Word) (c : Cause) : (s.takeFault w c).kb = s.kb := rfl
@[simp] theorem State.takeFault_disp (s : State) (w : Option Word) (c : Cause) : (s.takeFault w c).disp = s.disp := rfl
@[simp] theorem State.takeFault_ticks (s : State) (w : Option Word) (c : Cause) : (s.takeFault w c).ticks = s.ticks := rfl
@[simp] theorem State.takeFault_mem (s : State) (w : Option Word) (c : Cause) : (s.takeFault w c).mem = s.mem := rfl
@[simp] theorem State.takeFault_fault (s : State) (w : Option Word) (c : Cause) : (s.takeFault w c).fault = some ⟨c, s.pc, w⟩ := rfl
@[simp] theorem State.takeFault_build (s : State) (w : Option Word) (c : Cause) : (s.takeFault w c).build = s.build := rfl
@[simp] theorem State.takeFault_draws (s : State) (w : Option Word) (c : Cause) : (s.takeFault w c).draws = s.draws := rfl
@[simp] theorem State.takeFault_reg (s : State) (w : Option Word) (c : Cause) (y : Reg) : (s.takeFault w c).reg y = s.reg y := rfl
@[simp] theorem State.takeFault_slot (s : State) (w : Option Word) (c : Cause) (k : Nat) : (s.takeFault w c).slot k = s.slot k := rfl
@[simp] theorem State.takeFault_byteAt (s : State) (w : Option Word) (c : Cause) (a : Nat) : (s.takeFault w c).byteAt a = s.byteAt a := rfl
@[simp] theorem State.takeFault_dispByte (s : State) (w : Option Word) (c : Cause) (a : Nat) : (s.takeFault w c).dispByte a = s.dispByte a := rfl

end Sys2Proof.Machine
end

