-- ==== Sys2Proof/Laws/Memory.lean ====
section
/-! SUPPORT. Memory: a read after a write, and the canonical form. -/

namespace Sys2Proof.Machine

theorem Mem.read_filter_ne (font : Font) (m : List Host.Cell) {a c : Nat} (h : c ≠ a) :
    Mem.read font (m.filter fun cell => cell.1 != a) c = Mem.read font m c := by
  induction m with
  | nil => rfl
  | cons cell rest ih =>
    obtain ⟨b, w⟩ := cell
    by_cases hb : b = a
    · subst hb; simp [Mem.read, ih, h]
    · simp [Mem.read, ih, hb]

theorem Mem.read_filter_same (font : Font) (m : List Host.Cell) (a : Nat) :
    Mem.read font (m.filter fun cell => cell.1 != a) a = Mem.unlisted font a := by
  induction m with
  | nil => rfl
  | cons cell rest ih =>
    obtain ⟨b, w⟩ := cell
    by_cases hb : b = a
    · simpa [hb] using ih
    · simp [Mem.read, ih, hb, Ne.symm hb]

theorem Mem.read_insert_ne (font : Font) (m : List Host.Cell) (v : Byte) {a c : Nat} (h : c ≠ a) :
    Mem.read font (Mem.insert m a v) c = Mem.read font m c := by
  induction m with
  | nil => simp [Mem.insert, Mem.read, h]
  | cons cell rest ih =>
    obtain ⟨b, w⟩ := cell
    by_cases hb : a < b <;> simp [Mem.insert, Mem.read, hb, ih, h]

theorem Mem.read_insert_same (font : Font) (m : List Host.Cell) (a : Nat) (v : Byte)
    (h : ∀ cell ∈ m, cell.1 ≠ a) : Mem.read font (Mem.insert m a v) a = v := by
  induction m with
  | nil => simp [Mem.insert, Mem.read]
  | cons cell rest ih =>
    obtain ⟨b, w⟩ := cell
    have hb : a ≠ b := Ne.symm (h (b, w) (by simp))
    by_cases hlt : a < b
    · simp [Mem.insert, Mem.read, hlt]
    · simp [Mem.insert, Mem.read, hlt, hb, ih fun c hc => h c (by simp [hc])]

/-- A byte written is read back, in every state. -/
@[simp] theorem Mem.read_write_same (font : Font) (m : List Host.Cell) (a : Nat) (v : Byte) :
    Mem.read font (Mem.write font m a v) a = v := by
  by_cases h : v = Mem.unlisted font a
  · simp [Mem.write, h, Mem.read_filter_same]
  · simp only [Mem.write, h, if_false]
    exact Mem.read_insert_same font _ a v (by simp)

/-- A write leaves every other address as it read. -/
theorem Mem.read_write_ne (font : Font) (m : List Host.Cell) (v : Byte) {a c : Nat} (h : c ≠ a) :
    Mem.read font (Mem.write font m a v) c = Mem.read font m c := by
  by_cases hv : v = Mem.unlisted font a
  · simp [Mem.write, hv, Mem.read_filter_ne font m h]
  · simp [Mem.write, hv, Mem.read_insert_ne font _ v h, Mem.read_filter_ne font m h]

/-- What every address reads as after a store of one byte. -/
theorem State.byteAt_setByte (s : State) (a c : Nat) (v : Byte) :
    (s.setByte a v).byteAt c = if c = a then v else s.byteAt c := by
  by_cases h : c = a
  · subst h; simp [State.byteAt]
  · simp [State.byteAt, h, Mem.read_write_ne]

theorem Mem.wfFrom_mono (font : Font) (m : List Host.Cell) {lo lo' : Nat} (h : lo' ≤ lo)
    (hm : Mem.wfFrom font lo m = true) : Mem.wfFrom font lo' m = true := by
  cases m with
  | nil => rfl
  | cons cell rest =>
    obtain ⟨b, w⟩ := cell
    simp only [Mem.wfFrom, Bool.and_eq_true, decide_eq_true_eq] at hm ⊢
    exact ⟨⟨⟨by omega, hm.1.1.2⟩, hm.1.2⟩, hm.2⟩

theorem Mem.wfFrom_filter (font : Font) (m : List Host.Cell) (a : Nat) {lo : Nat}
    (hm : Mem.wfFrom font lo m = true) : Mem.wfFrom font lo (m.filter fun cell => cell.1 != a) = true := by
  induction m generalizing lo with
  | nil => rfl
  | cons cell rest ih =>
    obtain ⟨b, w⟩ := cell
    simp only [Mem.wfFrom, Bool.and_eq_true, decide_eq_true_eq] at hm
    by_cases hb : b = a
    · have := Mem.wfFrom_mono font _ (by omega : lo ≤ b + 1) (ih hm.2)
      simpa [hb] using this
    · simp [hb, Mem.wfFrom, hm.1.1.1, hm.1.1.2, hm.1.2, ih hm.2]

theorem Mem.wfFrom_insert (font : Font) (m : List Host.Cell) {a lo : Nat} {v : Byte} (hlo : lo ≤ a)
    (ha : a < memSize) (hv : v ≠ Mem.unlisted font a) (hne : ∀ cell ∈ m, cell.1 ≠ a)
    (hm : Mem.wfFrom font lo m = true) : Mem.wfFrom font lo (Mem.insert m a v) = true := by
  induction m generalizing lo with
  | nil => simp [Mem.insert, Mem.wfFrom, hlo, ha, hv]
  | cons cell rest ih =>
    obtain ⟨b, w⟩ := cell
    have hba : b ≠ a := hne (b, w) (by simp)
    simp only [Mem.wfFrom, Bool.and_eq_true, decide_eq_true_eq] at hm
    by_cases hlt : a < b
    · simp [Mem.insert, Mem.wfFrom, hlt, hlo, ha, hv, hm.1.1.2, hm.1.2, hm.2]
    · have := ih (by omega : b + 1 ≤ a) (fun c hc => hne c (by simp [hc])) hm.2
      simp [Mem.insert, Mem.wfFrom, hlt, hm.1.1.1, hm.1.1.2, hm.1.2, this]

/-- Every store below 4096 keeps the canonical form. -/
theorem Mem.wf_write (font : Font) (m : List Host.Cell) {a : Nat} (v : Byte) (ha : a < memSize)
    (hm : Mem.wf font m = true) : Mem.wf font (Mem.write font m a v) = true := by
  have hf := Mem.wfFrom_filter font m a hm
  by_cases hv : v = Mem.unlisted font a
  · simpa [Mem.wf, Mem.write, hv] using hf
  · simpa [Mem.wf, Mem.write, hv] using
      Mem.wfFrom_insert font _ (Nat.zero_le a) ha hv (by simp) hf

/-- Memory right after reset is in canonical form, in every build. -/
theorem Mem.wf_reset (b : Build) (n : Nat) : Mem.wf b.font (State.resetOf b n).mem = true := rfl

theorem State.setByte_wf (s : State) {a : Nat} (v : Byte) (ha : a < memSize)
    (hm : Mem.wf s.build.font s.mem = true) :
    Mem.wf (s.setByte a v).build.font (s.setByte a v).mem = true :=
  Mem.wf_write s.build.font s.mem v ha hm

end Sys2Proof.Machine
end

