-- ==== Sys2Proof/Laws/Registers.lean ====
section
/-! SUPPORT. Reads after writes of registers, stack slots and display bytes. -/

namespace Sys2Proof.Machine

/-- What every register reads as after a write of one. -/
theorem State.reg_setReg (s : State) (x y : Reg) (b : Byte) :
    (s.setReg x b).reg y = if y = x then b else s.reg y := by
  by_cases h : y = x
  · subst h; simp [State.reg]
  · have hn : x.toNat ≠ y.toNat := fun e => h (BitVec.eq_of_toNat_eq e.symm)
    simp [State.reg, h, hn]

@[simp] theorem State.reg_setReg_same (s : State) (x : Reg) (b : Byte) : (s.setReg x b).reg x = b := by
  simp [State.reg_setReg]

theorem State.reg_setReg_ne (s : State) {x y : Reg} (b : Byte) (h : y ≠ x) : (s.setReg x b).reg y = s.reg y := by
  simp [State.reg_setReg, h]

/-- What every slot reads as after a write of one inside the array. -/
theorem State.slot_setSlot (s : State) {j : Nat} (k : Nat) (w : Word) (hj : j < 16) :
    (s.setSlot j w).slot k = if k = j then w else s.slot k := by
  by_cases hk : k < 16
  · by_cases h : k = j
    · subst h; simp [State.slot, hj]
    · simp [State.slot, hk, h, Ne.symm h]
  · have : k ≠ j := by omega
    simp [State.slot, hk, this]

/-- Two states with equal registers and equal other fields read every register alike. -/
theorem State.reg_congr {s t : State} (h : t.v = s.v) (x : Reg) : t.reg x = s.reg x := by
  simp [State.reg, h]

/-- Memory bytes depend on the memory and the font alone. -/
theorem State.byteAt_congr {s t : State} (hm : t.mem = s.mem) (hb : t.build = s.build) (a : Nat) :
    t.byteAt a = s.byteAt a := by
  simp [State.byteAt, hm, hb]

/-- What every display byte is after one byte inside the display is set. -/
theorem getD_set_byte (d : List Byte) (b c : Nat) (v : Byte) (h : b < d.length) :
    (d.set b v).getD c 0 = if c = b then v else d.getD c 0 := by
  by_cases hc : c = b
  · subst hc; simp [List.getD_eq_getElem?_getD, h]
  · simp [List.getD_eq_getElem?_getD, List.getElem?_set_ne (Ne.symm hc), hc]

end Sys2Proof.Machine
end

