-- ==== Sys2Proof/Laws/Ops.lean ====
section
/-! SUPPORT. One lemma for each shared operation: everything it can do. -/

namespace Sys2Proof.Machine

/-! ## Checks -/

theorem memFault?_none {base count : Nat} : memFault? base count = none ↔ base + count ≤ memSize := by
  unfold memFault?; split <;> simp_all

theorem memFault?_some {base count : Nat} {c : Cause} :
    memFault? base count = some c ↔ memSize < base + count ∧ c = .memOob (max base memSize) := by
  unfold memFault?; grind

theorem stackFault?_none {j : Nat} : stackFault? j = none ↔ j < 16 := by
  unfold stackFault?; split <;> simp_all

theorem stackFault?_some {j : Nat} {c : Cause} : stackFault? j = some c ↔ 16 ≤ j ∧ c = .stackOob j := by
  unfold stackFault?; grind

/-- A checked effect answers a next state only when the check found nothing and the effect answers it. -/
theorem unlessFault_next {check : Option Cause} {go : Result} {t : State} :
    unlessFault check go = .next t ↔ check = none ∧ go = .next t := by
  cases check <;> simp [unlessFault, raise]

/-- A checked effect that is a next state faults exactly with what the check found. -/
theorem unlessFault_fault {check : Option Cause} {u : State} {f : Fault} :
    unlessFault check (.next u) = .fault f ↔ ∃ c, check = some c ∧ f = .raised c := by
  cases check <;> simp [unlessFault, raise, eq_comm]

theorem unlessFault_not_refused {check : Option Cause} {u : State} {r : Refusal} :
    unlessFault check (.next u) ≠ .refused r := by
  cases check <;> simp [unlessFault, raise]

/-! ## Skips and the flag of DRW -/

theorem State.skipIf_eq (s : State) (c : Bool) : s.skipIf c = s.setPc (if c then s.pc + 2 else s.pc) := by
  cases c <;> rfl

/-! ## Block transfers -/

/-- What the stores of `Fx55` leave: only memory changes. -/
theorem State.storeFrom_eq (s : State) (n : Nat) : s.storeFrom n = { s with mem := (s.storeFrom n).mem } := by
  induction n with
  | zero => rfl
  | succ k ih => simp only [State.storeFrom]; rw [ih]; rfl

/-- Every byte after the stores of `Fx55`: register k at I + k below the count, every other byte as before. -/
theorem State.byteAt_storeFrom (s : State) (n a : Nat) :
    (s.storeFrom n).byteAt a =
      if s.index.toNat ≤ a ∧ a < s.index.toNat + n then s.reg (BitVec.ofNat 4 (a - s.index.toNat)) else s.byteAt a := by
  induction n with
  | zero => simp [State.storeFrom]
  | succ k ih =>
    simp only [State.storeFrom, State.byteAt_setByte, ih, State.indexed]
    by_cases h : a = s.index.toNat + k
    · subst h; simp
    · grind

theorem State.storeFrom_wf (s : State) (n : Nat) (h : s.index.toNat + n ≤ memSize)
    (hm : Mem.wf s.build.font s.mem = true) : Mem.wf s.build.font (s.storeFrom n).mem = true := by
  induction n with
  | zero => exact hm
  | succ k ih =>
    have hb : (s.storeFrom k).build = s.build := by rw [State.storeFrom_eq]
    simp only [State.storeFrom, State.setByte_mem, hb]
    exact Mem.wf_write _ _ _ (by simp only [State.indexed]; omega) (ih (by omega))

/-- What the loads of `Fx65` leave: only the registers change. -/
theorem State.loadFrom_eq (s : State) (n : Nat) : s.loadFrom n = { s with v := (s.loadFrom n).v } := by
  induction n with
  | zero => rfl
  | succ k ih => simp only [State.loadFrom]; rw [ih]; rfl

/-- Every register after the loads of `Fx65`. -/
theorem State.reg_loadFrom (s : State) (n : Nat) (hn : n ≤ 16) (r : Reg) :
    (s.loadFrom n).reg r = if r.toNat < n then s.byteAt (s.index.toNat + r.toNat) else s.reg r := by
  induction n with
  | zero => simp [State.loadFrom]
  | succ k ih =>
    simp only [State.loadFrom, State.reg_setReg, State.indexed]
    have hk : (BitVec.ofNat 4 k).toNat = k := by simp; omega
    by_cases h : r = BitVec.ofNat 4 k
    · subst h; simp [hk]
    · have hne : r.toNat ≠ k := fun e => h (BitVec.eq_of_toNat_eq (by rw [hk]; exact e))
      rw [if_neg h, ih (by omega)]
      grind

/-! ## Drawing -/

/-- The check of `Dxyn` finds nothing exactly when every drawn row is inside memory and inside the display. -/
theorem drawFault?_none {s : State} {px py i rows : Nat} :
    drawFault? s px py i rows = none ↔
      ∀ k, i ≤ k → k < i + rows →
        s.index.toNat + k < memSize ∧ px < s.build.displayW ∧ py + k < s.build.displayH := by
  induction rows generalizing i with
  | zero => simp [drawFault?]; omega
  | succ n ih =>
    simp only [drawFault?, State.indexed]
    by_cases h1 : s.index.toNat + i ≥ memSize
    · simp only [h1, if_true, reduceCtorEq, false_iff]
      exact fun h => absurd (h i (le_refl i) (by omega)).1 (by omega)
    by_cases h2 : px ≥ s.build.displayW ∨ py + i ≥ s.build.displayH
    · simp only [h1, h2, if_true, if_false, reduceCtorEq, false_iff]
      exact fun h => by have := h i (le_refl i) (by omega); omega
    simp only [h1, h2, if_false, ih]
    constructor
    · intro h k hk hk2
      by_cases e : k = i
      · subst e; omega
      · exact h k (by omega) (by omega)
    · exact fun h k hk hk2 => h k (by omega) (by omega)

/-- What the check of `Dxyn` reports is outside memory or outside the display. -/
theorem drawFault?_genuine {s : State} {px py i rows : Nat} {c : Cause}
    (h : drawFault? s px py i rows = some c) : c.genuine s.build ∧ (∀ p, c ≠ .fetchOob p) := by
  induction rows generalizing i with
  | zero => simp [drawFault?] at h
  | succ n ih =>
    simp only [drawFault?] at h
    split at h
    · next hm => cases h; exact ⟨hm, by simp⟩
    · split at h
      · next hd =>
        cases h
        refine ⟨?_, by simp⟩
        rcases hd with hd | hd
        · exact Or.inr (Nat.div_le_div_right hd)
        · exact Or.inl hd
      · exact ih h

@[simp] theorem State.drawRows_length (s : State) (px py rows : Nat) :
    (s.drawRows px py rows).disp.length = s.disp.length := by
  induction rows with
  | zero => rfl
  | succ n ih => simp [State.drawRows, Canvas.xorByte, ih]

end Sys2Proof.Machine
end

