-- ==== Sys2Proof/Laws/Step.lean ====
section
/-! SUPPORT. Everything an instruction and a step can do, once. -/

namespace Sys2Proof.Machine

@[simp] theorem newlyPressed_zero (kb : Word) : newlyPressed kb = 0 := by simp [newlyPressed]

theorem execLdVxKey_eq (x : Reg) (s : State) : execLdVxKey x s = .next (s.setPc (s.pc - 2)) := by
  simp [execLdVxKey]

/-- What no instruction changes. -/
theorem exec_keeps {i : Instr} {s t : State} (h : exec i s = .next t) :
    t.kb = s.kb ∧ t.ticks = s.ticks ∧ t.fault = s.fault ∧ t.build = s.build ∧ t.draws = s.draws := by
  cases i <;>
    simp only [exec, execCls, execRet, execJp, execCall, execSeImm, execSneImm, execSeReg, execLdImm, execAddImm,
      execLdReg, execOrReg, execAndReg, execXorReg, execAddReg, execSubReg, execShr, execSubn, execShl, execSneReg,
      execLdI, execJpV0, execRnd, execDrw, execSkp, execSknp, execLdVxDt, execLdVxKey_eq, execLdDtVx, execLdStVx,
      execAddI, execLdFont, execLdBcd, execStoreRegs, execLoadRegs, unlessFault_next, State.skipIf_eq,
      State.subtractInto, State.subnEffect, State.shrHalf, State.setHit, Host.Outcome.next.injEq] at h <;>
    first
      | (subst h; exact ⟨rfl, rfl, rfl, rfl, rfl⟩)
      | (obtain ⟨-, rfl⟩ := h; exact ⟨rfl, rfl, rfl, rfl, rfl⟩)
      | (obtain ⟨-, rfl⟩ := h; split <;> exact ⟨rfl, rfl, rfl, rfl, rfl⟩)
      | (obtain ⟨-, rfl⟩ := h; rw [State.storeFrom_eq]; exact ⟨rfl, rfl, rfl, rfl, rfl⟩)
      | (obtain ⟨-, rfl⟩ := h; rw [State.loadFrom_eq]; exact ⟨rfl, rfl, rfl, rfl, rfl⟩)

/-- An instruction answers a next state or a fault it raises, with a genuine cause that is no failed fetch. -/
theorem exec_cases (i : Instr) (s : State) :
    (∃ t, exec i s = .next t) ∨
      ∃ c, exec i s = .fault (.raised c) ∧ c.genuine s.build ∧ ∀ p, c ≠ .fetchOob p := by
  cases i <;>
    simp only [exec, execCls, execRet, execJp, execCall, execSeImm, execSneImm, execSeReg, execLdImm, execAddImm,
      execLdReg, execOrReg, execAndReg, execXorReg, execAddReg, execSubReg, execShr, execSubn, execShl, execSneReg,
      execLdI, execJpV0, execRnd, execDrw, execSkp, execSknp, execLdVxDt, execLdVxKey_eq, execLdDtVx, execLdStVx,
      execAddI, execLdFont, execLdBcd, execStoreRegs, execLoadRegs] <;>
    first
      | exact .inl ⟨_, rfl⟩
      | (generalize hc : stackFault? _ = check
         cases check with
         | none => exact .inl ⟨_, rfl⟩
         | some c => obtain ⟨hj, rfl⟩ := stackFault?_some.1 hc; exact .inr ⟨_, rfl, hj, by simp⟩)
      | (generalize hc : memFault? _ _ = check
         cases check with
         | none => exact .inl ⟨_, rfl⟩
         | some c =>
           obtain ⟨-, rfl⟩ := memFault?_some.1 hc
           exact .inr ⟨_, rfl, by simp [Cause.genuine], by simp⟩)
      | (generalize hc : drawFault? _ _ _ _ _ = check
         cases check with
         | none => exact .inl ⟨_, rfl⟩
         | some c => exact .inr ⟨_, rfl, drawFault?_genuine hc⟩)

/-- A step of a running core: the fetch fails; or the word's effect answers a state, which the end of the step closes; or
the effect faults and the record is set on the state before the step. -/
theorem step_cases {s : State} (h : s.fault = none) :
    (memSize ≤ s.pc.toNat + 1 ∧ step s = .next (s.takeFault none (.fetchOob s.pc.toNat))) ∨
      ∃ w, s.pc.toNat + 1 < memSize ∧ fetch s = .ok w ∧
        ((∃ t, execute w s.preAdvance = .next t ∧ step s = .next t.endStep) ∨
          ∃ c, execute w s.preAdvance = .fault (.raised c) ∧ step s = .next (s.takeFault (some w) c) ∧
            c.genuine s.build ∧ ∀ p, c ≠ .fetchOob p) := by
  by_cases hp : s.pc.toNat + 1 < memSize
  · have hf : fetch s = .ok (wordOfBytes (s.byteAt s.pc.toNat) (s.byteAt (s.pc.toNat + 1))) := by simp [fetch, hp]
    generalize wordOfBytes (s.byteAt s.pc.toNat) (s.byteAt (s.pc.toNat + 1)) = w at hf
    have hs : step s = settle s w (execute w s.preAdvance) := by simp [step, h, runningStep, hf]
    refine .inr ⟨w, hp, hf, ?_⟩
    cases hd : decodeWord w with
    | error e => exact .inl ⟨s.preAdvance, by simp [execute, hd, execUnmatched], by simp [hs, execute, hd, execUnmatched, settle]⟩
    | ok i =>
      rcases exec_cases i s.preAdvance with ⟨t, ht⟩ | ⟨c, hc, hg⟩
      · exact .inl ⟨t, by simp [execute, hd, ht], by simp [hs, execute, hd, ht, settle]⟩
      · exact .inr ⟨c, by simp [execute, hd, hc], by simp [hs, execute, hd, hc, settle], by simpa using hg⟩
  · exact .inl ⟨by omega, by simp [step, h, runningStep, fetch, hp]⟩

/-- A word's effect leaves what no instruction changes. -/
theorem execute_keeps {w : Word} {s t : State} (h : execute w s = .next t) :
    t.kb = s.kb ∧ t.ticks = s.ticks ∧ t.fault = s.fault ∧ t.build = s.build ∧ t.draws = s.draws := by
  cases hd : decodeWord w with
  | error e => simp only [execute, hd, execUnmatched, Host.Outcome.next.injEq] at h; subst h; exact ⟨rfl, rfl, rfl, rfl, rfl⟩
  | ok i => exact exec_keeps (by simpa [execute, hd] using h)

end Sys2Proof.Machine
end

