-- ==== Sys2Proof/Laws/Driver.lean ====
section
/-! SUPPORT. What each operation of the driver can do, once, and the induction over sequences of them. -/

namespace Sys2Proof.Machine

/-- Writing an image changes memory alone. -/
theorem State.writeImage_eq (s : State) (base : Nat) (image : List Byte) :
    s.writeImage base image = { s with mem := (s.writeImage base image).mem } := by
  induction image generalizing s base with
  | nil => rfl
  | cons b rest ih => simp only [State.writeImage]; rw [ih]; rfl

/-- Every address outside the image reads as before. -/
theorem State.byteAt_writeImage_outside (image : List Byte) (s : State) (base a : Nat)
    (h : ∀ j, j < image.length → a ≠ base + j) : (s.writeImage base image).byteAt a = s.byteAt a := by
  induction image generalizing s base with
  | nil => rfl
  | cons b rest ih =>
    rw [State.writeImage, ih _ _ fun j hj => by have := h (j + 1) (by simpa using hj); omega, State.byteAt_setByte, if_neg]
    simpa using h 0 (by simp)

/-- Every address of the image reads as its byte. -/
theorem State.byteAt_writeImage_inside (image : List Byte) (s : State) (base j : Nat) (h : j < image.length) :
    (s.writeImage base image).byteAt (base + j) = image[j] := by
  induction image generalizing s base j with
  | nil => exact absurd h (by simp)
  | cons b rest ih =>
    cases j with
    | zero =>
      rw [State.writeImage, State.byteAt_writeImage_outside _ _ _ _ fun k _ => by omega]
      simp [State.byteAt_setByte]
    | succ j =>
      rw [State.writeImage, show base + (j + 1) = base + 1 + j by omega]
      simpa using ih (s.setByte base b) (base + 1) j (by simpa using h)

/-- An image that ends inside memory keeps the canonical form. -/
theorem State.writeImage_wf (image : List Byte) (s : State) (base : Nat) (hb : base + image.length ≤ memSize)
    (h : Mem.wf s.build.font s.mem = true) : Mem.wf s.build.font (s.writeImage base image).mem = true := by
  induction image generalizing s base with
  | nil => exact h
  | cons b rest ih =>
    simp only [List.length_cons] at hb
    exact ih (s.setByte base b) (base + 1) (by omega) (Mem.wf_write _ _ _ (by omega) h)

/-- A load writes the image, or fails on one that is too long. -/
theorem State.load_eq (s : State) (image : List Byte) :
    (image.length ≤ 3584 ∧ s.load image = some (s.writeImage 0x200 image)) ∨
      (3584 < image.length ∧ s.load image = none) := by
  have hm : maxImage = 3584 := rfl
  by_cases h : image.length ≤ 3584
  · exact .inl ⟨h, by simp [State.load, hm, h]⟩
  · exact .inr ⟨by omega, by simp [State.load, hm, h]⟩

/-- A press changes the keyboard alone. -/
theorem State.keyPress_eq (s : State) (k : Nat) : s.keyPress k = { s with kb := (s.keyPress k).kb } := by
  simp only [State.keyPress]; split <;> rfl

/-- A release changes the keyboard alone. -/
theorem State.keyRelease_eq (s : State) (k : Nat) : s.keyRelease k = { s with kb := (s.keyRelease k).kb } := by
  simp only [State.keyRelease]; split <;> rfl

/-- A step request does what the step does, or nothing. -/
theorem State.afterStepRequest_cases (s : State) :
    (step s = .next s.afterStepRequest) ∨ ((∃ r, s.fault = some r) ∧ s.afterStepRequest = s) := by
  cases hf : s.fault with
  | some r => exact .inr ⟨⟨r, rfl⟩, by simp [State.afterStepRequest, step, hf, stoppedStep]⟩
  | none =>
    left
    rcases step_cases hf with ⟨-, h⟩ | ⟨w, -, -, ⟨t, -, h⟩ | ⟨c, -, h, -⟩⟩ <;> simp [State.afterStepRequest, h]

/-- Everything an operation of the driver can do. -/
theorem Session.drive_cases {d e : Session} {op : DriverOp} (h : d.drive op = some e) :
    (op = .step ∧ e = ⟨d.core.afterStepRequest, false⟩) ∨
    (op = .reset ∧ e = ⟨State.resetOf d.core.build d.core.draws, true⟩) ∨
    (∃ image, op = .load image ∧ d.mayLoad = true ∧
      ((image.length ≤ 3584 ∧ e = ⟨d.core.writeImage 0x200 image, false⟩) ∨ (3584 < image.length ∧ e = d))) ∨
    ((∃ k, op = .keyPress k ∨ op = .keyRelease k) ∧ ∃ kb, e = { d with core := { d.core with kb := kb } }) ∨
    ((op = .readDisplay ∨ op = .readDiag ∨ op = .readFault) ∧ e = d) := by
  cases op with
  | step => exact .inl ⟨rfl, (Option.some.inj h).symm⟩
  | reset => exact .inr (.inl ⟨rfl, (Option.some.inj h).symm⟩)
  | load image =>
    refine .inr (.inr (.inl ⟨image, rfl, ?_⟩))
    simp only [Session.drive] at h
    split at h
    · next hm =>
      refine ⟨hm, ?_⟩
      rcases State.load_eq d.core image with ⟨hl, he⟩ | ⟨hl, he⟩ <;> simp only [he, Option.some.injEq] at h
      · exact .inl ⟨hl, h.symm⟩
      · exact .inr ⟨hl, h.symm⟩
    · exact absurd h (by simp)
  | keyPress k =>
    exact .inr (.inr (.inr (.inl ⟨⟨k, .inl rfl⟩, _, by rw [← State.keyPress_eq]; exact (Option.some.inj h).symm⟩)))
  | keyRelease k =>
    exact .inr (.inr (.inr (.inl ⟨⟨k, .inr rfl⟩, _, by rw [← State.keyRelease_eq]; exact (Option.some.inj h).symm⟩)))
  | readDisplay => exact .inr (.inr (.inr (.inr ⟨.inl rfl, (Option.some.inj h).symm⟩)))
  | readDiag => exact .inr (.inr (.inr (.inr ⟨.inr (.inl rfl), (Option.some.inj h).symm⟩)))
  | readFault => exact .inr (.inr (.inr (.inr ⟨.inr (.inr rfl), (Option.some.inj h).symm⟩)))

@[simp] theorem Session.driveAll_nil (d : Session) : d.driveAll [] = some d := rfl

/-- A sequence is its first operation and then the rest. -/
theorem Session.driveAll_cons {d e : Session} {op : DriverOp} {rest : List DriverOp} :
    d.driveAll (op :: rest) = some e ↔ ∃ m, d.drive op = some m ∧ m.driveAll rest = some e :=
  Option.bind_eq_some_iff

/-- What every operation keeps, every sequence of operations keeps. -/
theorem Session.driveAll_keeps {P : Session → Prop} (step : ∀ d e op, P d → d.drive op = some e → P e)
    (ops : List DriverOp) {d e : Session} (hd : P d) (h : d.driveAll ops = some e) : P e := by
  induction ops generalizing d with
  | nil => exact Option.some.inj h ▸ hd
  | cons op rest ih =>
    obtain ⟨m, hm, hr⟩ := Session.driveAll_cons.1 h
    exact ih (step d m op hd hm) hr

end Sys2Proof.Machine
end

