-- ==== Sys2Proof/Laws/Encoding.lean ====
section
/-! SUPPORT. Fields of the encoding formats, and the checks on written terms. -/

namespace Sys2Proof

theorem Instr.wellFormed_all (i : Instr) : i.wellFormed = true := by
  cases i <;> simp [Instr.wellFormed] <;> bv_omega

/-! The fields of each format (R51, R52). -/

@[simp] theorem opClass_formatA (c : Nibble) (nnn : Addr12) : opClass (formatA c nnn) = c := by
  ext i hi; simp [opClass, formatA]; grind

@[simp] theorem fieldNnn_formatA (c : Nibble) (nnn : Addr12) : fieldNnn (formatA c nnn) = nnn := by
  ext i hi; simp [fieldNnn, formatA]; grind

@[simp] theorem opClass_formatXK (c : Nibble) (x : Reg) (kk : Byte) : opClass (formatXK c x kk) = c := by
  ext i hi; simp [opClass, formatXK]; grind

@[simp] theorem fieldX_formatXK (c : Nibble) (x : Reg) (kk : Byte) : fieldX (formatXK c x kk) = x := by
  ext i hi; simp [fieldX, formatXK]; grind

@[simp] theorem fieldKk_formatXK (c : Nibble) (x : Reg) (kk : Byte) : fieldKk (formatXK c x kk) = kk := by
  ext i hi; simp [fieldKk, formatXK]; grind

@[simp] theorem opClass_formatXYN (c : Nibble) (x y : Reg) (n : Nibble) : opClass (formatXYN c x y n) = c := by
  ext i hi; simp [opClass, formatXYN]; grind

@[simp] theorem fieldX_formatXYN (c : Nibble) (x y : Reg) (n : Nibble) : fieldX (formatXYN c x y n) = x := by
  ext i hi; simp [fieldX, formatXYN]; grind

@[simp] theorem fieldY_formatXYN (c : Nibble) (x y : Reg) (n : Nibble) : fieldY (formatXYN c x y n) = y := by
  ext i hi; simp [fieldY, formatXYN]; grind

@[simp] theorem fieldN_formatXYN (c : Nibble) (x y : Reg) (n : Nibble) : fieldN (formatXYN c x y n) = n := by
  ext i hi; simp [fieldN, formatXYN]; grind

/-! Every word is its fields, in each of the three layouts. -/

theorem word_eq_formatA (w : Word) : formatA (opClass w) (fieldNnn w) = w := by
  ext i hi; simp [opClass, fieldNnn, formatA]; grind

theorem word_eq_formatXK (w : Word) : formatXK (opClass w) (fieldX w) (fieldKk w) = w := by
  ext i hi; simp [opClass, fieldX, fieldKk, formatXK]; grind

theorem word_eq_formatXYN (w : Word) : formatXYN (opClass w) (fieldX w) (fieldY w) (fieldN w) = w := by
  ext i hi; simp [opClass, fieldX, fieldY, fieldN, formatXYN]; grind

/-! The fields that pick a row, read from a word masked by the row's mask (R54). -/

theorem opClass_masked (w m : Word) (h : m &&& 0xF000 = 0xF000) : opClass (w &&& m) = opClass w := by
  have e (v : Word) : opClass v = opClass (v &&& 0xF000) := by
    ext i hi
    have : i = 0 ∨ i = 1 ∨ i = 2 ∨ i = 3 := by omega
    rcases this with rfl | rfl | rfl | rfl <;> simp [opClass]
  rw [e, BitVec.and_assoc, h, ← e]

theorem fieldN_masked (w m : Word) (h : m &&& 0x000F = 0x000F) : fieldN (w &&& m) = fieldN w := by
  have e (v : Word) : fieldN v = fieldN (v &&& 0x000F) := by
    ext i hi
    have : i = 0 ∨ i = 1 ∨ i = 2 ∨ i = 3 := by omega
    rcases this with rfl | rfl | rfl | rfl <;> simp [fieldN]
  rw [e, BitVec.and_assoc, h, ← e]

theorem fieldKk_masked (w m : Word) (h : m &&& 0x00FF = 0x00FF) : fieldKk (w &&& m) = fieldKk w := by
  have e (v : Word) : fieldKk v = fieldKk (v &&& 0x00FF) := by
    ext i hi
    have : i = 0 ∨ i = 1 ∨ i = 2 ∨ i = 3 ∨ i = 4 ∨ i = 5 ∨ i = 6 ∨ i = 7 := by omega
    rcases this with rfl | rfl | rfl | rfl | rfl | rfl | rfl | rfl <;> simp [fieldKk]
  rw [e, BitVec.and_assoc, h, ← e]

/-- The bytes of a word in memory order make the word again (R42). -/
@[simp] theorem wordOfBytes_bytes (w : Word) : wordOfBytes (w.extractLsb' 8 8) (w.extractLsb' 0 8) = w := by
  ext i hi; simp [wordOfBytes]; grind

/-- The numeric value of the word two bytes make: big-endian (R42, R61). -/
theorem wordOfBytes_toNat (hi lo : Byte) : (wordOfBytes hi lo).toNat = hi.toNat * 256 + lo.toNat := by
  change (hi ++ lo : BitVec (8 + 8)).toNat = _
  rw [BitVec.toNat_append, ← Nat.shiftLeft_add_eq_or_of_lt lo.isLt, Nat.shiftLeft_eq]

/-- A word decodes to the table's instruction however many bits the table gives it, none of its bits being dropped. -/
theorem decodeTableWord_eq (w : Nat) :
    decodeTableWord 16 w = (match decodeWord (BitVec.ofNat 16 w) with | .ok i => some i | .error _ => none) := by
  have h : BitVec.ofNat 16 (w % 2 ^ 16) = BitVec.ofNat 16 w := by
    apply BitVec.eq_of_toNat_eq; simp
  unfold decodeTableWord
  rw [h]
  simp only [bytesOfWord, decodeBytes, wordOfBytes_bytes]
  cases decodeWord (BitVec.ofNat 16 w) <;> rfl

end Sys2Proof
end

