-- ==== Sys2Proof/Laws/PerInstr.lean ====
section
/-! SUPPORT. Statements for all instructions, one lemma per constructor. -/

namespace Sys2Proof.Laws.FixedBits

/-- The encoding of an instruction carries the fixed bits of its row of the opcode table, whatever its operands: the row
matches it (R54). -/
def Statement (i : Instr) : Prop := (rowOf i).matchesWord (encode i) = true

@[simp] theorem and_ones4 (c : Nibble) : c &&& 15#4 = c := BitVec.and_allOnes

@[simp] theorem and_ones8 (c : Byte) : c &&& 255#8 = c := BitVec.and_allOnes

/-! The fixed bits of each format (R52). -/

theorem row_formatA (c : Nibble) (nnn : Addr12) {f : Word} (h : formatA c 0 = f) :
    OpcodeRow.matchesWord ⟨f, 0xF000⟩ (formatA c nnn) = true := by
  subst h
  simp only [OpcodeRow.matchesWord, beq_iff_eq]
  have mask : (0xF000 : Word) = formatA 0xF 0 := rfl
  rw [mask]; unfold formatA
  rw [BitVec.and_append]
  simp

theorem row_formatXK (c : Nibble) (x : Reg) (kk : Byte) {f : Word} (h : formatXK c 0 0 = f) :
    OpcodeRow.matchesWord ⟨f, 0xF000⟩ (formatXK c x kk) = true := by
  subst h
  simp only [OpcodeRow.matchesWord, beq_iff_eq]
  have mask : (0xF000 : Word) = formatXK 0xF 0 0 := rfl
  rw [mask]; unfold formatXK
  rw [BitVec.and_append, BitVec.and_append]
  simp

theorem row_formatXYN (c : Nibble) (x y : Reg) (n : Nibble) {f : Word} (h : formatXYN c 0 0 0 = f) :
    OpcodeRow.matchesWord ⟨f, 0xF000⟩ (formatXYN c x y n) = true := by
  subst h
  simp only [OpcodeRow.matchesWord, beq_iff_eq]
  have mask : (0xF000 : Word) = formatXYN 0xF 0 0 0 := rfl
  rw [mask]; unfold formatXYN
  rw [BitVec.and_append, BitVec.and_append, BitVec.and_append]
  simp

theorem row_formatX (c : Nibble) (x : Reg) (kk : Byte) {f : Word} (h : formatXK c 0 kk = f) :
    OpcodeRow.matchesWord ⟨f, 0xF0FF⟩ (formatXK c x kk) = true := by
  subst h
  simp only [OpcodeRow.matchesWord, beq_iff_eq]
  have mask : (0xF0FF : Word) = formatXK 0xF 0 0xFF := rfl
  rw [mask]; unfold formatXK
  rw [BitVec.and_append, BitVec.and_append]
  simp

theorem row_formatXY (c : Nibble) (x y : Reg) (n : Nibble) {f : Word} (h : formatXYN c 0 0 n = f) :
    OpcodeRow.matchesWord ⟨f, 0xF00F⟩ (formatXYN c x y n) = true := by
  subst h
  simp only [OpcodeRow.matchesWord, beq_iff_eq]
  have mask : (0xF00F : Word) = formatXYN 0xF 0 0 0xF := rfl
  rw [mask]; unfold formatXYN
  rw [BitVec.and_append, BitVec.and_append, BitVec.and_append]
  simp

/-! One lemma per constructor. -/

theorem cls : Statement (.cls) := rfl
theorem ret : Statement (.ret) := rfl
theorem jp (nnn : Addr12) : Statement (.jp nnn) := row_formatA _ nnn rfl
theorem call (nnn : Addr12) : Statement (.call nnn) := row_formatA _ nnn rfl
theorem seImm (x : Reg) (kk : Byte) : Statement (.seImm x kk) := row_formatXK _ x kk rfl
theorem sneImm (x : Reg) (kk : Byte) : Statement (.sneImm x kk) := row_formatXK _ x kk rfl
theorem seReg (x y : Reg) : Statement (.seReg x y) := row_formatXY _ x y _ rfl
theorem ldImm (x : Reg) (kk : Byte) : Statement (.ldImm x kk) := row_formatXK _ x kk rfl
theorem addImm (x : Reg) (kk : Byte) : Statement (.addImm x kk) := row_formatXK _ x kk rfl
theorem ldReg (x y : Reg) : Statement (.ldReg x y) := row_formatXY _ x y _ rfl
theorem orReg (x y : Reg) : Statement (.orReg x y) := row_formatXY _ x y _ rfl
theorem andReg (x y : Reg) : Statement (.andReg x y) := row_formatXY _ x y _ rfl
theorem xorReg (x y : Reg) : Statement (.xorReg x y) := row_formatXY _ x y _ rfl
theorem addReg (x y : Reg) : Statement (.addReg x y) := row_formatXY _ x y _ rfl
theorem subReg (x y : Reg) : Statement (.subReg x y) := row_formatXY _ x y _ rfl
theorem shr (x y : Reg) : Statement (.shr x y) := row_formatXY _ x y _ rfl
theorem subn (x y : Reg) : Statement (.subn x y) := row_formatXY _ x y _ rfl
theorem shl (x y : Reg) : Statement (.shl x y) := row_formatXY _ x y _ rfl
theorem sneReg (x y : Reg) : Statement (.sneReg x y) := row_formatXY _ x y _ rfl
theorem ldI (nnn : Addr12) : Statement (.ldI nnn) := row_formatA _ nnn rfl
theorem jpV0 (nnn : Addr12) : Statement (.jpV0 nnn) := row_formatA _ nnn rfl
theorem rnd (x : Reg) (kk : Byte) : Statement (.rnd x kk) := row_formatXK _ x kk rfl
theorem drw (x y : Reg) (n : Nibble) : Statement (.drw x y n) := row_formatXYN _ x y n rfl
theorem skp (x : Reg) : Statement (.skp x) := row_formatX _ x _ rfl
theorem sknp (x : Reg) : Statement (.sknp x) := row_formatX _ x _ rfl
theorem ldVxDt (x : Reg) : Statement (.ldVxDt x) := row_formatX _ x _ rfl
theorem ldVxKey (x : Reg) : Statement (.ldVxKey x) := row_formatX _ x _ rfl
theorem ldDtVx (x : Reg) : Statement (.ldDtVx x) := row_formatX _ x _ rfl
theorem ldStVx (x : Reg) : Statement (.ldStVx x) := row_formatX _ x _ rfl
theorem addI (x : Reg) : Statement (.addI x) := row_formatX _ x _ rfl
theorem ldFont (x : Reg) : Statement (.ldFont x) := row_formatX _ x _ rfl
theorem ldBcd (x : Reg) : Statement (.ldBcd x) := row_formatX _ x _ rfl
theorem storeRegs (x : Reg) : Statement (.storeRegs x) := row_formatX _ x _ rfl
theorem loadRegs (x : Reg) : Statement (.loadRegs x) := row_formatX _ x _ rfl

end Sys2Proof.Laws.FixedBits
end

