-- ==== Sys2Proof/Tests/Slice0.lean ====
section
/-! SUPPORT. Tests: ill-formed terms refused, words written out from the encodings of R54, one-step vectors of
95_test_vectors.md, and a witness for every obligation that has hypotheses. The expected results are the spec's own
(`S1` .. `K19` name the vector) or are worked out by hand from the rule named. -/

namespace Sys2Proof.Tests

open Sys2Proof.Machine

/-! ## Helpers -/

/-- The reset state with some registers set. -/
def regs (l : List (Reg × Byte)) : State := l.foldl (fun s p => s.setReg p.1 p.2) State.reset

/-- A state with some bytes of memory set. -/
def bytes (s : State) (l : List (Nat × Byte)) : State := l.foldl (fun s p => s.setByte p.1 p.2) s

/-- What a view of the state shows after one step; none where no state follows. -/
def afterStep {α : Type} (s : State) (view : State → α) : Option α :=
  match step s with
  | .next t => some (view t)
  | _ => none

/-- What a view of the state shows after one step that runs the word `w`. -/
def after {α : Type} (s : State) (w : Nat) (view : State → α) : Option α := afterStep (s.withFetchWord 16 w) view

/-! ## WellFormed: a term for each check, which the check refuses -/

/-- R8 `DISPLAY_W mod 8 = 0`. -/
theorem test_build_width_not_whole_bytes :
    Build.wellFormed { displayW := 20, displayH := 32, font := Config.defaultFont } = false := by decide

/-- R8 `DISPLAY_W >= 8`. -/
theorem test_build_width_too_small :
    Build.wellFormed { displayW := 0, displayH := 32, font := Config.defaultFont } = false := by decide

/-- R8 `DISPLAY_H >= 1`. -/
theorem test_build_no_rows :
    Build.wellFormed { displayW := 64, displayH := 0, font := Config.defaultFont } = false := by decide

/-- The default build, and the smallest. -/
theorem test_build_accepted :
    Config.defaultBuild.wellFormed = true ∧
    Build.wellFormed { displayW := 8, displayH := 1, font := Config.defaultFont } = true := by decide

/-- A `match` bit outside the `mask`. -/
theorem test_row_match_outside_mask : OpcodeRow.wellFormed ⟨0x5001, 0xF000⟩ = false := by decide

/-- A `mask` that leaves the opcode class open. -/
theorem test_row_class_open : OpcodeRow.wellFormed ⟨0x0000, 0x000F⟩ = false := by decide

/-- All 34 rows are well formed and no two are equal. -/
theorem test_rows_accepted :
    (opcodeTable.all fun r => r.wellFormed) = true ∧ opcodeTable.length = 34 ∧ opcodeTable.Nodup := by decide

/-! ## Decoding: a word written out bit by bit from R54 for every constructor -/

theorem test_decode_control :
    decodeWord 0b0000_0000_1110_0000 = .ok (.cls) ∧
    decodeWord 0b0000_0000_1110_1110 = .ok (.ret) ∧
    decodeWord 0b0001_1010_1011_1100 = .ok (.jp 0xABC) ∧
    decodeWord 0b0010_0010_0000_1000 = .ok (.call 0x208) ∧
    decodeWord 0b0011_0011_0010_1010 = .ok (.seImm 0x3 0x2A) ∧
    decodeWord 0b0100_0011_0010_1010 = .ok (.sneImm 0x3 0x2A) ∧
    decodeWord 0b0101_0001_0010_0000 = .ok (.seReg 0x1 0x2) ∧
    decodeWord 0b1001_0001_0010_0000 = .ok (.sneReg 0x1 0x2) ∧
    decodeWord 0b1011_0011_0000_0000 = .ok (.jpV0 0x300) := by decide

theorem test_decode_arithmetic :
    decodeWord 0b0110_1010_0000_0101 = .ok (.ldImm 0xA 0x05) ∧
    decodeWord 0b0111_0000_0000_0011 = .ok (.addImm 0x0 0x03) ∧
    decodeWord 0b1000_0001_0010_0000 = .ok (.ldReg 0x1 0x2) ∧
    decodeWord 0b1000_0001_0010_0001 = .ok (.orReg 0x1 0x2) ∧
    decodeWord 0b1000_0001_0010_0010 = .ok (.andReg 0x1 0x2) ∧
    decodeWord 0b1000_0001_0010_0011 = .ok (.xorReg 0x1 0x2) ∧
    decodeWord 0b1000_0001_0010_0100 = .ok (.addReg 0x1 0x2) ∧
    decodeWord 0b1000_0011_0000_0101 = .ok (.subReg 0x3 0x0) ∧
    decodeWord 0b1000_0010_0001_0110 = .ok (.shr 0x2 0x1) ∧
    decodeWord 0b1000_0001_0010_0111 = .ok (.subn 0x1 0x2) ∧
    decodeWord 0b1000_0010_0001_1110 = .ok (.shl 0x2 0x1) ∧
    decodeWord 0b1100_0011_0000_1111 = .ok (.rnd 0x3 0x0F) := by decide

theorem test_decode_index_memory :
    decodeWord 0b1010_0011_0000_0001 = .ok (.ldI 0x301) ∧
    decodeWord 0b1111_0010_0001_1110 = .ok (.addI 0x2) ∧
    decodeWord 0b1111_0000_0010_1001 = .ok (.ldFont 0x0) ∧
    decodeWord 0b1111_0000_0011_0011 = .ok (.ldBcd 0x0) ∧
    decodeWord 0b1111_0001_0101_0101 = .ok (.storeRegs 0x1) ∧
    decodeWord 0b1111_0010_0110_0101 = .ok (.loadRegs 0x2) := by decide

theorem test_decode_display_keys_timers :
    decodeWord 0b1101_0001_0010_0101 = .ok (.drw 0x1 0x2 0x5) ∧
    decodeWord 0b1110_0001_1001_1110 = .ok (.skp 0x1) ∧
    decodeWord 0b1110_0001_1010_0001 = .ok (.sknp 0x1) ∧
    decodeWord 0b1111_0100_0000_0111 = .ok (.ldVxDt 0x4) ∧
    decodeWord 0b1111_0011_0000_1010 = .ok (.ldVxKey 0x3) ∧
    decodeWord 0b1111_0001_0001_0101 = .ok (.ldDtVx 0x1) ∧
    decodeWord 0b1111_0010_0001_1000 = .ok (.ldStVx 0x2) := by decide

/-- Near misses: CF15, A42, K10, D2, and a word of class F (R56). -/
theorem test_decode_unmatched :
    decodeWord 0x5121 = .error (.unmatched 0x5121) ∧ decodeWord 0x8128 = .error (.unmatched 0x8128) ∧
    decodeWord 0x812F = .error (.unmatched 0x812F) ∧ decodeWord 0xE19F = .error (.unmatched 0xE19F) ∧
    decodeWord 0xE0A2 = .error (.unmatched 0xE0A2) ∧ decodeWord 0x01E0 = .error (.unmatched 0x01E0) ∧
    decodeWord 0xF066 = .error (.unmatched 0xF066) ∧ decodeWord 0x0000 = .error (.unmatched 0x0000) := by decide

/-- Bytes as memory holds them: the first byte is the high one, two bytes are an instruction, one byte is none. -/
theorem test_decode_bytes :
    decodeBytes [0x6A, 0x05, 0x12] = .ok (.ldImm 0xA 0x05, [0x12]) ∧ decodeBytes [0x6A] = .error .truncated ∧
    decodeTableWord 16 0xD122 = some (.drw 0x1 0x2 0x2) ∧ decodeTableWord 16 0x5121 = none := by decide

/-- The encoder, on one word of each format. -/
theorem test_encode :
    encode (.call 0x208) = 0x2208 ∧ encode (.subReg 0x3 0x0) = 0x8305 ∧ encode (.drw 0x1 0x2 0x5) = 0xD125 ∧
    encode (.storeRegs 0x1) = 0xF155 ∧ encode .ret = 0x00EE := by decide

/-! ## Reset and the first step -/

/-- S1: FONT at 0..79 (the first and last byte of the conventional font, R39), 0 from 80 on, PC 0x200. -/
theorem test_reset :
    State.reset.byteAt 0 = 0xF0 ∧ State.reset.byteAt 79 = 0x80 ∧ State.reset.byteAt 80 = 0 ∧
    State.reset.byteAt 0xFFF = 0 ∧ State.reset.pc = 0x200 := by decide

/-- R42: the word is stored high byte first at PC, and nowhere else. -/
theorem test_with_fetch_word :
    (State.reset.withFetchWord 16 0x6A05).mem = [(0x200, 0x6A), (0x201, 0x05)] := by decide

/-- The codes of R124. -/
theorem test_codes : (Cause.fetchOob 0).code = 1 ∧ (Cause.memOob 0).code = 2 ∧ (Cause.stackOob 0).code = 3 ∧
    (Cause.displayOob 0 0).code = 4 := by decide

/-! ## Control transfer -/

/-- CF1. -/
theorem test_jp :
    after State.reset 0x1ABC (fun t => (t.pc, t.ticks)) = some (0xABC, 1) := by decide

/-- CF2. -/
theorem test_jp_odd :
    after State.reset 0x1201 (fun t => t.pc) = some 0x201 := by decide

/-- CF4. -/
theorem test_call :
    after State.reset 0x2208 (fun t => (t.sp, t.slot 1, t.pc)) = some (1, 0x202, 0x208) := by decide

/-- CF6, K19: the faulting step commits nothing, the countdown included. -/
theorem test_call_full :
    after { State.reset with sp := 15, dt := 5 } 0x2300 (fun t => (t.fault, t.sp, t.pc, t.ticks, t.dt)) = some 
      (some ⟨.stackOob 16, 0x200, some 0x2300⟩, 15, 0x200, 0, 5) := by decide

/-- CF8. -/
theorem test_ret :
    after { State.reset.setSlot 1 0x202 with sp := 1 } 0x00EE (fun t => (t.pc, t.sp, t.slot 1)) = some (0x202, 0, 0x202) := by decide

/-- CF9. -/
theorem test_ret_empty :
    after State.reset 0x00EE (fun t => (t.pc, t.sp, t.fault)) = some (0x000, 0xFF, none) := by decide

/-- S3. -/
theorem test_se_imm :
    after (regs [(3, 0x2A)]) 0x332A (fun t => t.pc) = some 0x204 := by decide

/-- CF11. -/
theorem test_sne_imm :
    after (regs [(3, 0x2A)]) 0x432A (fun t => t.pc) = some 0x202 := by decide

/-- CF14. -/
theorem test_se_reg :
    after (regs [(1, 0x07), (2, 0x08)]) 0x5120 (fun t => t.pc) = some 0x202 := by decide

/-- CF17. -/
theorem test_sne_reg :
    after (regs [(1, 0x07), (2, 0x08)]) 0x9120 (fun t => t.pc) = some 0x204 := by decide

/-- CF20. -/
theorem test_jp_v0 :
    after (regs [(0, 0xFF)]) 0xBFFF (fun t => t.pc) = some 0x10FE := by decide

/-- CF21. -/
theorem test_jp_v0_not_vx :
    after (regs [(5, 0xFF)]) 0xB500 (fun t => t.pc) = some 0x500 := by decide

/-- CF23. -/
theorem test_fetch_last_word :
    after { State.reset with pc := 0xFFE } 0x6A05 (fun t => (t.reg 0xA, t.pc)) = some (0x05, 0x1000) := by decide

/-- CF24. -/
theorem test_fetch_outside :
    afterStep { State.reset with pc := 0xFFF } (fun t => (t.fault, t.pc, t.ticks)) =
      some (some ⟨.fetchOob 0xFFF, 0xFFF, none⟩, 0xFFF, 0) := by decide

/-! ## Register arithmetic and logic -/

/-- A1, S2. -/
theorem test_ld_imm :
    after State.reset 0x6A05 (fun t => (t.reg 0xA, t.pc)) = some (0x05, 0x202) := by decide

/-- A3. -/
theorem test_add_imm :
    after (regs [(0xF, 0xFF)]) 0x7F01 (fun t => t.reg 0xF) = some 0x00 := by decide

/-- A4. -/
theorem test_ld_reg :
    after (regs [(2, 0x33)]) 0x8120 (fun t => t.reg 1) = some 0x33 := by decide

/-- A5. -/
theorem test_or :
    after (regs [(1, 0x0F), (2, 0x30)]) 0x8121 (fun t => t.reg 1) = some 0x3F := by decide

/-- A6. -/
theorem test_and :
    after (regs [(1, 0x3C), (2, 0x0F)]) 0x8122 (fun t => t.reg 1) = some 0x0C := by decide

/-- A7. -/
theorem test_xor :
    after (regs [(1, 0x3C), (2, 0x0F)]) 0x8123 (fun t => t.reg 1) = some 0x33 := by decide

/-- A9. -/
theorem test_add_reg :
    after (regs [(0, 0xC8), (1, 0x64)]) 0x8014 (fun t => (t.reg 0, t.reg 0xF)) = some (0x2C, 1) := by decide

/-- A12. -/
theorem test_add_reg_into_vf :
    after (regs [(0xF, 0x80), (1, 0x90)]) 0x8F14 (fun t => t.reg 0xF) = some 1 := by decide

/-- A16. -/
theorem test_sub :
    after (regs [(0, 0x0A), (1, 0xC8)]) 0x8015 (fun t => (t.reg 0, t.reg 0xF)) = some (0x42, 1) := by decide

/-- A18. -/
theorem test_sub_most_negative :
    after (regs [(0, 0x80), (1, 0x00)]) 0x8015 (fun t => (t.reg 0, t.reg 0xF)) = some (0x80, 0) := by decide

/-- A22. -/
theorem test_subn :
    after (regs [(1, 0x05), (2, 0x03)]) 0x8127 (fun t => (t.reg 1, t.reg 0xF)) = some (0xFE, 0) := by decide

/-- A23. -/
theorem test_subn_positive :
    after (regs [(1, 0x03), (2, 0x05)]) 0x8127 (fun t => (t.reg 1, t.reg 0xF)) = some (0x02, 1) := by decide

/-- A29. -/
theorem test_shr :
    after (regs [(1, 0xFF)]) 0x8216 (fun t => (t.reg 2, t.reg 0xF)) = some (0x80, 0) := by decide

/-- A31. -/
theorem test_shr_of_vf :
    after (regs [(0xF, 0x07)]) 0x81F6 (fun t => (t.reg 1, t.reg 0xF)) = some (0x01, 1) := by decide

/-- A37. -/
theorem test_shl_into_vf :
    after (regs [(1, 0x81)]) 0x8F1E (fun t => t.reg 0xF) = some 0x02 := by decide

/-- A38. -/
theorem test_shl_of_vf :
    after (regs [(0xF, 0x81)]) 0x81FE (fun t => (t.reg 1, t.reg 0xF)) = some (0x02, 1) := by decide

/-- A39 for every draw: the bits outside the mask are 0, the draw itself is free (R92). -/
theorem test_rnd (b : Byte) : (b &&& 0x0F) &&& 0xF0 = 0 ∧
    after State.reset 0xC30F (fun t => t.reg 3) = some (Config.rnd 0 &&& 0x0F) :=
  ⟨by revert b; decide, rfl⟩

/-! ## Index register and memory transfer -/

/-- M1. -/
theorem test_ld_i :
    after State.reset 0xA300 (fun t => t.index) = some 0x300 := by decide

/-- M3. -/
theorem test_add_i :
    after { regs [(0, 0x02)] with index := 0xFFFF } 0xF01E (fun t => (t.index, t.reg 0xF)) = some (0x0001, 0) := by decide

/-- M7. -/
theorem test_ld_font :
    after (regs [(0, 0xFF)]) 0xF029 (fun t => t.index) = some 0x4FB := by decide

/-- M8. -/
theorem test_ld_bcd :
    after { regs [(0, 0xFE)] with index := 0x300 } 0xF033 (fun t => (t.byteAt 0x300, t.byteAt 0x301, t.byteAt 0x302, t.index)) = some 
      (0x02, 0x05, 0x04, 0x300) := by decide

/-- M12. -/
theorem test_ld_bcd_outside :
    after { regs [(0, 0xFE)] with index := 0xFFE } 0xF033 (fun t => (t.fault, t.byteAt 0xFFE)) = some 
      (some ⟨.memOob 0x1000, 0x200, some 0xF033⟩, 0) := by decide

/-- M15. -/
theorem test_store_regs :
    after { regs [(0, 0x01), (1, 0x02)] with index := 0x300 } 0xF155 (fun t => (t.byteAt 0x300, t.byteAt 0x301, t.index)) = some 
      (0x01, 0x02, 0x302) := by decide

/-- M18. -/
theorem test_store_regs_outside :
    after { State.reset with index := 0xFF1 } 0xFF55 (fun t => (t.fault, t.index)) = some 
      (some ⟨.memOob 0x1000, 0x200, some 0xFF55⟩, 0xFF1) := by decide

/-- M20. -/
theorem test_load_regs :
    after { bytes State.reset [(0x300, 2), (0x301, 5), (0x302, 4)] with index := 0x300 } 0xF265 (fun t => (t.reg 0, t.reg 1, t.reg 2, t.index)) = some 
      (0x02, 0x05, 0x04, 0x300) := by decide

/-- M22. -/
theorem test_load_regs_outside :
    after { State.reset with index := 0xFF1 } 0xFF65 (fun t => t.fault) = some 
      (some ⟨.memOob 0x1000, 0x200, some 0xFF65⟩) := by decide

/-! ## Display -/

/-- D1. -/
theorem test_cls :
    after (State.reset.setDisp (List.replicate 256 0xFF)) 0x00E0 (fun t => (t.dispByte 0, t.dispByte 255, t.reg 0xF)) = some (0, 0, 0) := by decide

/-- D3. -/
theorem test_drw :
    after { bytes (regs [(1, 0x0C), (2, 0x03)]) [(0x20E, 0xC3), (0x20F, 0x3C)] with index := 0x20E } 0xD122 (fun t => (t.dispByte 25, t.dispByte 33, t.reg 0xF)) = some 
      (0xC3, 0x3C, 0) := by decide

/-- D13. -/
theorem test_drw_checks_memory_first :
    after { regs [(2, 0x1F)] with index := 0xFFF } 0xD122 (fun t => t.fault) = some 
      (some ⟨.memOob 0x1000, 0x200, some 0xD122⟩) := by decide

/-! ## Keyboard and timers -/

/-- K1. -/
theorem test_skp :
    after { regs [(1, 0x05)] with kb := 0x0020 } 0xE19E (fun t => t.pc) = some 0x204 := by decide

/-- K3. -/
theorem test_skp_no_such_key :
    after { regs [(1, 0x10)] with kb := 0xFFFF } 0xE19E (fun t => t.pc) = some 0x202 := by decide

/-- K4. -/
theorem test_sknp :
    after { regs [(1, 0x03)] with kb := 0x0020 } 0xE1A1 (fun t => t.pc) = some 0x204 := by decide

/-- K5. -/
theorem test_sknp_key_itself :
    after { regs [(1, 0x05)] with kb := 0x0020 } 0xE1A1 (fun t => t.pc) = some 0x202 := by decide

/-- K11. -/
theorem test_ld_vx_dt :
    after { State.reset with dt := 0x10 } 0xF407 (fun t => (t.reg 4, t.dt)) = some (0x10, 0x0F) := by decide

/-- S6, K13. -/
theorem test_ld_vx_key :
    after { State.reset with pc := 0x240, kb := 0x0008, dt := 3 } 0xF30A (fun t => (t.pc, t.reg 3, t.dt)) = some (0x240, 0, 2) := by decide

/-- K14. -/
theorem test_ld_dt_vx :
    after (regs [(1, 0x64)]) 0xF115 (fun t => t.dt) = some 0x63 := by decide

/-- K16. -/
theorem test_ld_st_vx :
    after (regs [(2, 0x01)]) 0xF218 (fun t => t.st) = some 0x00 := by decide

/-- K18. -/
theorem test_unmatched :
    after { State.reset with dt := 3, st := 1 } 0x0000 (fun t => (t.dt, t.st, t.pc)) = some (2, 0, 0x202) := by decide

/-! ## Witnesses: a concrete state and operands that meet every hypothesis of an obligation, at the ends of its ranges -/

/-- D3: a two-row sprite at 0x20E, to be drawn at column 0x0C, row 3. -/
def drawScene : State := { bytes (regs [(1, 0x0C), (2, 0x03)]) [(0x20E, 0xC3), (0x20F, 0x3C)] with index := 0x20E }

theorem reset_inv : Inv State.reset where
  build_ok := by decide
  mem_ok := by decide
  disp_ok := List.length_replicate
  fault_pc := fun _ h => nomatch h
  fault_word := fun _ h => nomatch h
  fault_genuine := fun _ h => nomatch h

theorem test_witness_EncodeOfDecode : decodeWord 0x81F6 = .ok (.shr 0x1 0xF) := by decide

theorem test_witness_DecoderAgreesWithOpcodeTable :
    decodeWord 0x81F6 = .ok (.shr 0x1 0xF) ∧ ⟨0x8006, 0xF00F⟩ ∈ opcodeTable ∧
    OpcodeRow.matchesWord ⟨0x8006, 0xF00F⟩ 0x81F6 = true := by decide

/-- An instruction that goes on. -/
theorem test_witness_StepRunsDecodedInstruction_next :
    let s := State.reset.withFetchWord 16 0x2300
    s.fault = none ∧ s.pc.toNat + 1 < 4096 ∧
    0x2300 = wordOfBytes (s.byteAt s.pc.toNat) (s.byteAt (s.pc.toNat + 1)) ∧
    decodeWord 0x2300 = .ok (.call 0x300) ∧ ∃ t, exec (.call 0x300) { s with pc := s.pc + 2 } = .next t :=
  ⟨by decide, by decide, by decide, by decide, _, rfl⟩

/-- The same instruction where it faults. -/
theorem test_witness_StepRunsDecodedInstruction_fault :
    let s := { State.reset.withFetchWord 16 0x2300 with sp := 15 }
    s.fault = none ∧ s.pc.toNat + 1 < 4096 ∧
    0x2300 = wordOfBytes (s.byteAt s.pc.toNat) (s.byteAt (s.pc.toNat + 1)) ∧
    decodeWord 0x2300 = .ok (.call 0x300) ∧
    exec (.call 0x300) { s with pc := s.pc + 2 } = .fault (.raised (.stackOob 16)) :=
  ⟨by decide, by decide, by decide, by decide, rfl⟩

theorem test_witness_UnmatchedWordOnlyAdvances :
    let s := State.reset.withFetchWord 16 0x5121
    s.fault = none ∧ s.pc.toNat + 1 < 4096 ∧
    0x5121 = wordOfBytes (s.byteAt s.pc.toNat) (s.byteAt (s.pc.toNat + 1)) ∧
    decodeWord 0x5121 = .error (.unmatched 0x5121) := by decide

/-- The last address a word can be fetched from, and the first it cannot. -/
theorem test_witness_FetchIsBigEndianOrFaults :
    { State.reset with pc := 0xFFE }.pc.toNat + 1 < 4096 ∧
    { State.reset with pc := 0xFFF }.fault = none ∧ 4096 ≤ { State.reset with pc := 0xFFF }.pc.toNat + 1 := by decide

/-- A fault of the fetch, and one of an instruction. -/
theorem test_witness_FaultingStepCommitsNothing :
    afterStep { State.reset with pc := 0xFFF } State.fault = some (some ⟨.fetchOob 0xFFF, 0xFFF, none⟩) ∧
    after { State.reset with index := 0xFFE } 0xF033 State.fault =
      some (some ⟨.memOob 0x1000, 0x200, some 0xF033⟩) := by decide

theorem test_witness_FaultedCoreTakesNoStep :
    { State.reset with fault := some ⟨.stackOob 16, 0x200, some 0x2300⟩ }.fault =
      some ⟨.stackOob 16, 0x200, some 0x2300⟩ := rfl

theorem test_witness_RunningStepAlwaysCompletes : State.reset.fault = none := rfl

/-- The word that sets DT, the one that sets ST, and one that sets neither. -/
theorem test_witness_TimersCountDownOncePerStep :
    fetch (State.reset.withFetchWord 16 0xF115) = .ok 0xF115 ∧ after State.reset 0xF115 State.fault = some none ∧
    fetch (State.reset.withFetchWord 16 0xF218) = .ok 0xF218 ∧ after State.reset 0xF218 State.fault = some none ∧
    fetch State.reset = .ok 0x0000 ∧ afterStep State.reset State.fault = some none :=
  ⟨rfl, by decide, rfl, by decide, rfl, by decide⟩

theorem test_witness_ResetMeetsTheInvariant : Config.defaultBuild.wellFormed = true := by decide

theorem test_witness_StepKeepsTheInvariant : Inv State.reset ∧ ∃ t, step State.reset = .next t := ⟨reset_inv, _, rfl⟩

/-- A session at its start, and a boot: reset, a key, a load, a step, a read. -/
theorem session_inv : (Session.start Config.defaultBuild 0).Inv := ⟨reset_inv, fun _ => rfl⟩

theorem test_witness_DriverKeepsTheInvariant :
    (Session.start Config.defaultBuild 0).Inv ∧
    ∃ e, (Session.start Config.defaultBuild 0).driveAll
      [.reset, .keyPress 5, .load [0x6A, 0x05], .step, .readDiag] = some e :=
  ⟨session_inv, _, rfl⟩

/-- Both kinds of value, a sequence from each; and the step that makes 255. -/
theorem test_witness_StackPointerStaysInReach :
    { State.reset with sp := 15 }.spInReach ∧ { State.reset with sp := 255 }.spInReach ∧
    (∃ e, Session.driveAll ⟨{ State.reset with sp := 15 }, false⟩ [.step] = some e) ∧
    (∃ e, Session.driveAll ⟨{ State.reset with sp := 255 }, false⟩ [.step] = some e) ∧
    ∃ t, step (State.reset.withFetchWord 16 0x00EE) = .next t ∧ (State.reset.withFetchWord 16 0x00EE).sp ≠ 255 ∧ t.sp = 255 :=
  ⟨.inl (by decide), .inr rfl, ⟨_, rfl⟩, ⟨_, rfl⟩, _, rfl, by decide, rfl⟩

/-- Each element is changed by some instruction. -/
theorem test_witness_ElementsChangeOnlyByTheirInstructions :
    (∃ t, exec (.jp 0x300) State.reset = .next t ∧ t.pc ≠ State.reset.pc) ∧
    (∃ t, exec (.ldImm 0x0 0x05) State.reset = .next t ∧ t.v ≠ State.reset.v) ∧
    (∃ t, exec (.ldBcd 0x0) (regs [(0, 0xFE)]) = .next t ∧ t.mem ≠ (regs [(0, 0xFE)]).mem) ∧
    (∃ t, exec (.drw 0x1 0x2 0x2) drawScene = .next t ∧ t.disp ≠ drawScene.disp) ∧
    (∃ t, exec .ret State.reset = .next t ∧ t.sp ≠ State.reset.sp) ∧
    (∃ t, exec (.call 0x300) State.reset = .next t ∧ t.stack ≠ State.reset.stack) ∧
    (∃ t, exec (.ldI 0x300) State.reset = .next t ∧ t.index ≠ State.reset.index) ∧
    (∃ t, exec (.ldDtVx 0x0) (regs [(0, 0xFE)]) = .next t ∧ t.dt ≠ (regs [(0, 0xFE)]).dt) ∧
    (∃ t, exec (.ldStVx 0x0) (regs [(0, 0xFE)]) = .next t ∧ t.st ≠ (regs [(0, 0xFE)]).st) :=
  ⟨⟨_, rfl, by decide⟩, ⟨_, rfl, by decide⟩, ⟨_, rfl, by decide⟩, ⟨_, rfl, by decide⟩, ⟨_, rfl, by decide⟩,
    ⟨_, rfl, by decide⟩, ⟨_, rfl, by decide⟩, ⟨_, rfl, by decide⟩, ⟨_, rfl, by decide⟩⟩

theorem test_witness_FlagChangesOnlyByItsInstructions :
    ∃ t, exec (.addReg 0x0 0x1) (regs [(0, 0xC8), (1, 0x64)]) = .next t ∧
      t.reg regF ≠ (regs [(0, 0xC8), (1, 0x64)]).reg regF :=
  ⟨_, rfl, by decide⟩

theorem test_witness_TicksAndSoundTimerAreUnread : ∃ t, step State.reset = .next t := ⟨_, rfl⟩

theorem test_witness_MemoriesThatReadAlikeAreEqual :
    Mem.wf Config.defaultFont [(0x000, 0x01), (0xFFF, 0x01)] = true ∧
    ∀ a, Mem.read Config.defaultFont [(0x000, 0x01), (0xFFF, 0x01)] a =
      Mem.read Config.defaultFont [(0x000, 0x01), (0xFFF, 0x01)] a :=
  ⟨by decide, fun _ => rfl⟩

/-- The canonical form refuses a list out of order, a repeat, an address outside memory, and a listed reset value. -/
theorem test_memory_form :
    Mem.wf Config.defaultFont [(0x201, 0x01), (0x200, 0x01)] = false ∧
    Mem.wf Config.defaultFont [(0x200, 0x01), (0x200, 0x01)] = false ∧
    Mem.wf Config.defaultFont [(0x1000, 0x01)] = false ∧ Mem.wf Config.defaultFont [(0x000, 0xF0)] = false := by decide

theorem test_witness_StoredWordIsFetched : { State.reset with pc := 0xFFE }.pc.toNat + 1 < 4096 := by decide

/-- The last slot, and slot 0 from SP = 255. -/
theorem test_witness_CallPushesTheReturnAddress :
    ({ State.reset with sp := 14 }.sp.toNat + 1) % 256 < 16 ∧
    ({ State.reset with sp := 255 }.sp.toNat + 1) % 256 < 16 := by decide

theorem test_witness_ReturnPopsTheAddress :
    State.reset.sp.toNat < 16 ∧ { State.reset with sp := 15 }.sp.toNat < 16 := by decide

theorem test_witness_StackAccessOutsideFaults :
    16 ≤ ({ State.reset with sp := 15 }.sp.toNat + 1) % 256 ∧ 16 ≤ ({ State.reset with sp := 254 }.sp.toNat + 1) % 256 ∧
    16 ≤ { State.reset with sp := 16 }.sp.toNat ∧ 16 ≤ { State.reset with sp := 255 }.sp.toNat := by decide

theorem test_witness_ReturnUndoesCall :
    ({ State.reset with sp := 14 }.sp.toNat + 1) % 256 < 16 ∧
    ∃ t, exec (.call 0x300) { State.reset with sp := 14 } = .next t ∧
      ∃ t' : State, t' ≠ t ∧ t'.sp = t.sp ∧ t'.stack = t.stack :=
  ⟨by decide, _, rfl, { (State.reset.setSlot 15 0x200).setReg 0 7 with sp := 15 }, by decide, rfl, rfl⟩

/-! A word of every row named in a statement's encoding clause. -/

theorem test_witness_JumpLoadsTheAddress : (0x1ABC : Word) &&& 0xF000 = 0x1000 := by decide

theorem test_witness_JumpWithOffsetAddsRegisterZero : (0xB5FF : Word) &&& 0xF000 = 0xB000 := by decide

theorem test_witness_SkipsOnImmediate :
    (0x332A : Word) &&& 0xF000 = 0x3000 ∧ (0x432A : Word) &&& 0xF000 = 0x4000 := by decide

theorem test_witness_SkipsOnRegisters :
    (0x5120 : Word) &&& 0xF00F = 0x5000 ∧ (0x9120 : Word) &&& 0xF00F = 0x9000 := by decide

theorem test_witness_LoadsSetTheirRegister :
    (0x6A05 : Word) &&& 0xF000 = 0x6000 ∧ (0x8120 : Word) &&& 0xF00F = 0x8000 := by decide

theorem test_witness_AddImmediateWrapsWithoutFlag : (0x7F01 : Word) &&& 0xF000 = 0x7000 := by decide

theorem test_witness_LogicIsBitwise :
    (0x8121 : Word) &&& 0xF00F = 0x8001 ∧ (0x8122 : Word) &&& 0xF00F = 0x8002 ∧
    (0x8123 : Word) &&& 0xF00F = 0x8003 := by decide

theorem test_witness_IndexRegisterInstructions :
    (0xA300 : Word) &&& 0xF000 = 0xA000 ∧ (0xF21E : Word) &&& 0xF0FF = 0xF01E ∧
    (0xF029 : Word) &&& 0xF0FF = 0xF029 := by decide

theorem test_witness_DelayTimerIsRead : (0xF407 : Word) &&& 0xF0FF = 0xF007 := by decide

/-- The register cases of the flag-writing instructions (`x` is VF, and it is not), and a word of `8xy4`. -/
theorem test_witness_AddRegistersSetsCarry :
    (0x0 : Reg) ≠ regF ∧ ¬ (0xF : Reg) ≠ regF ∧ (0x8014 : Word) &&& 0xF00F = 0x8004 := by decide

/-- The difference at the ends of the range where the flag is 1, and just outside it (A15, A18, A19). -/
theorem test_witness_SubtractionFlagIsSignedPositive :
    (0x0 : Reg) ≠ regF ∧ (256 + 5 - 5) % 256 = 0 ∧ (256 + 0x7F - 0) % 256 = 127 ∧ (256 + 0x80 - 0) % 256 = 128 ∧
    after (regs [(0, 0x7F)]) 0x8015 (fun t => (t.reg 0, t.reg 0xF)) = some (0x7F, 1) ∧
    after (regs [(0xF, 0x09), (1, 0x04)]) 0x8F15 (fun t => t.reg 0xF) = some 1 := by decide

/-- One vector for each case of the table of `SHR`: A26, A30, A33, A32, A34. -/
theorem test_witness_ShiftRightFallsThroughIntoSubn :
    after (regs [(1, 0x07)]) 0x8216 (fun t => (t.reg 2, t.reg 0xF)) = some (0x04, 1) ∧
    after (regs [(1, 0x64)]) 0x8116 (fun t => (t.reg 1, t.reg 0xF)) = some (0x00, 0) ∧
    after (regs [(1, 0x64)]) 0x8F16 (fun t => t.reg 0xF) = some 1 ∧
    after (regs [(0xF, 0x06)]) 0x81F6 (fun t => (t.reg 1, t.reg 0xF)) = some (0x00, 0) ∧
    after (regs [(0xF, 0x64)]) 0x8FF6 (fun t => t.reg 0xF) = some 0 := by decide

/-- One vector for each case of `SHL`: A35, A36, and `x = y = F`. -/
theorem test_witness_ShiftLeftWritesTheFlagFirst :
    after (regs [(1, 0x81)]) 0x821E (fun t => (t.reg 2, t.reg 0xF)) = some (0x02, 1) ∧
    after (regs [(1, 0x40)]) 0x821E (fun t => (t.reg 2, t.reg 0xF)) = some (0x80, 0) ∧
    after (regs [(0xF, 0x81)]) 0x8FFE (fun t => t.reg 0xF) = some 2 := by decide

theorem test_witness_RandomByteIsMasked : (0x0F : Byte).getLsbD 4 = false := by decide

/-- The last place three bytes fit (M11). -/
theorem test_witness_DecimalDigitsAreStored : { State.reset with index := 0xFFD }.index.toNat + 2 < 4096 := by decide

/-- All sixteen registers at the end of memory, and one at its last byte. -/
theorem test_witness_RegistersAreStored :
    { State.reset with index := 0xFF0 }.index.toNat + (0xF : Reg).toNat < 4096 ∧
    { State.reset with index := 0xFFF }.index.toNat + (0x0 : Reg).toNat < 4096 ∧
    (0x2 : Reg).toNat ≤ (0x2 : Reg).toNat := by decide

theorem test_witness_RegistersAreLoaded :
    { State.reset with index := 0xFF0 }.index.toNat + (0xF : Reg).toNat < 4096 ∧
    { State.reset with index := 0xFFF }.index.toNat + (0x0 : Reg).toNat < 4096 ∧
    (0x2 : Reg).toNat ≤ (0x2 : Reg).toNat ∧ (0x2 : Reg).toNat < (0x3 : Reg).toNat := by decide

/-- M12, M18 and M19. -/
theorem test_witness_TransfersOutsideMemoryFault :
    4096 ≤ { State.reset with index := 0xFFE }.index.toNat + 2 ∧
    4096 ≤ { State.reset with index := 0xFF1 }.index.toNat + (0xF : Reg).toNat ∧
    4096 ≤ { State.reset with index := 0xFFFF }.index.toNat + (0x0 : Reg).toNat := by decide

/-- The premises of a drawing on a state: the build, and every drawn row inside memory and the display. -/
def drawable (s : State) (x y : Reg) (n : Nibble) : Prop :=
  s.build.wellFormed = true ∧ s.disp.length = s.build.displayBytes ∧
  ∀ i, i < n.toNat → s.indexed i < 4096 ∧ (s.reg x).toNat < s.build.displayW ∧ (s.reg y).toNat + i < s.build.displayH

/-- D3; the last row, column and byte of memory; and D8 with no rows. -/
theorem test_witness_DrawXorsWholeBytes :
    drawable drawScene 0x1 0x2 0x2 ∧
    drawable { regs [(1, 63), (2, 31)] with index := 0xFFF } 0x1 0x2 0x1 ∧
    drawable { regs [(1, 0xC8), (2, 0xC8)] with index := 0xFFFF } 0x1 0x2 0x0 :=
  ⟨⟨by decide, reset_inv.disp_ok, by decide⟩, ⟨by decide, reset_inv.disp_ok, by decide⟩, ⟨by decide, reset_inv.disp_ok, by decide⟩⟩

/-- D5 and D6: a collision, and none. -/
theorem test_witness_DrawXorsWholeBytes_flag :
    after { bytes State.reset [(0x300, 0xFF)] with index := 0x300, disp := 0x0F :: List.replicate 255 0 } 0xD011
      (fun t => (t.dispByte 0, t.reg 0xF)) = some (0xF0, 1) ∧
    after { bytes (regs [(0xF, 0x55)]) [(0x300, 0xF0)] with index := 0x300, disp := 0x0F :: List.replicate 255 0 } 0xD011
      (fun t => (t.dispByte 0, t.reg 0xF)) = some (0xFF, 0x55) := by decide

/-- Memory on the second row (D12), the display's height on the second row (D9), its width on the first (D10). -/
theorem test_witness_DrawOutsideFaultsAtTheFirstRow :
    (let s := { State.reset with index := 0xFFF }
     1 < (0x2 : Nibble).toNat ∧
     (∀ i, i < 1 → s.indexed i < 4096 ∧ (s.reg 0x1).toNat < s.build.displayW ∧
       (s.reg 0x2).toNat + i < s.build.displayH) ∧ 4096 ≤ s.indexed 1) ∧
    (let s := { regs [(2, 31)] with index := 0x300 }
     1 < (0x5 : Nibble).toNat ∧
     (∀ i, i < 1 → s.indexed i < 4096 ∧ (s.reg 0x1).toNat < s.build.displayW ∧
       (s.reg 0x2).toNat + i < s.build.displayH) ∧ s.indexed 1 < 4096 ∧
     (s.build.displayW ≤ (s.reg 0x1).toNat ∨ s.build.displayH ≤ (s.reg 0x2).toNat + 1)) ∧
    (let s := regs [(1, 64)]
     0 < (0x1 : Nibble).toNat ∧
     (∀ i, i < 0 → s.indexed i < 4096 ∧ (s.reg 0x1).toNat < s.build.displayW ∧
       (s.reg 0x2).toNat + i < s.build.displayH) ∧ s.indexed 0 < 4096 ∧
     (s.build.displayW ≤ (s.reg 0x1).toNat ∨ s.build.displayH ≤ (s.reg 0x2).toNat + 0)) := by decide

theorem test_witness_DrawingTwiceRestoresTheDisplay :
    (0x1 : Reg) ≠ regF ∧ (0x2 : Reg) ≠ regF ∧ drawable drawScene 0x1 0x2 0x2 ∧ drawScene.byteAt (drawScene.indexed 0) ≠ 0 :=
  ⟨by decide, by decide, ⟨by decide, reset_inv.disp_ok, by decide⟩, by decide⟩

/-- K1, K3, K4 and K9: each test skips, and does not. -/
theorem test_witness_KeyTestsSkip :
    ((0x05 : Byte).toNat < 16 ∧ (0x0020 : Word).getLsbD (0x05 : Byte).toNat = true) ∧
    ¬ ((0x10 : Byte).toNat < 16 ∧ (0xFFFF : Word).getLsbD (0x10 : Byte).toNat = true) ∧
    ((0x03 : Byte).toNat < 5 ∧ 5 < 16 ∧ (0x0020 : Word).getLsbD 5 = true) ∧
    (∀ k, k < 16 → (0x0F : Byte).toNat < k → (0x8000 : Word).getLsbD k = false) := by decide

/-- S6, with key events between the steps. -/
theorem test_witness_KeyWaitNeverEnds :
    (State.reset.withFetchWord 16 0xF30A).fault = none ∧ fetch (State.reset.withFetchWord 16 0xF30A) = .ok 0xF30A ∧
    decodeWord 0xF30A = .ok (.ldVxKey 0x3) ∧
    .reset ∉ ([.step, .keyPress 5, .step, .keyRelease 5, .readFault] : List DriverOp) ∧
    ∀ image, .load image ∉ ([.step, .keyPress 5, .step, .keyRelease 5, .readFault] : List DriverOp) :=
  ⟨rfl, rfl, rfl, by simp, by simp⟩

/-- The longest image and one byte more (H5), on a session with an open load. -/
theorem test_witness_LoadPlacesTheImage :
    (Session.start Config.defaultBuild 0).mayLoad = true ∧
    (List.replicate 3584 (1 : Byte)).length ≤ 3584 ∧ 3584 < (List.replicate 3585 (1 : Byte)).length := by
  rw [List.length_replicate, List.length_replicate]; exact ⟨rfl, by omega, by omega⟩

theorem test_witness_LoadIsOpenOnlyBeforeTheFirstStep :
    (∃ e, (Session.start Config.defaultBuild 0).drive .step = some e) ∧
    ([0x6A, 0x05] : List Byte).length ≤ 3584 ∧
    (∃ e, (Session.start Config.defaultBuild 0).drive (.load [0x6A, 0x05]) = some e) ∧
    .reset ∉ ([.step, .keyPress 5] : List DriverOp) ∧
    ∃ e, Session.driveAll ⟨State.reset, false⟩ [.step, .keyPress 5] = some e :=
  ⟨⟨_, rfl⟩, by decide, ⟨_, rfl⟩, by simp, _, rfl⟩

/-- A key event, a load and a read: each changes its own element, or nothing. -/
theorem test_witness_DriverWritesOnlyKeysAndImage :
    (∃ e, (Session.start Config.defaultBuild 0).drive (.keyPress 5) = some e ∧ e.core.kb ≠ 0) ∧
    (∃ e, (Session.start Config.defaultBuild 0).drive (.load [0x6A, 0x05]) = some e ∧ e.core.mem ≠ []) ∧
    (∃ e, (Session.start Config.defaultBuild 0).drive .readDisplay = some e) :=
  ⟨⟨_, rfl, by decide⟩, ⟨_, rfl, by decide⟩, _, rfl⟩

/-- R121, U25: no load after a step, none after a load, none on a core that faulted; one again after a reset. -/
theorem test_no_load_after_the_first_step :
    ((Session.start Config.defaultBuild 0).driveAll [.step, .load [0x6A]]).isNone = true ∧
    ((Session.start Config.defaultBuild 0).driveAll [.load [0x6A], .load [0x6A]]).isNone = true ∧
    (Session.driveAll ⟨{ State.reset with pc := 0xFFF }, true⟩ [.step, .load [0x6A]]).isNone = true ∧
    ((Session.start Config.defaultBuild 0).driveAll [.step, .reset, .load [0x6A]]).isSome = true := by decide

/-- H6, H2, H1, and C4: a press of a held key. -/
theorem test_driver :
    ((Session.start Config.defaultBuild 0).drive (.load [0x6A, 0x05])).map (fun e => (e.core.mem, e.mayLoad)) =
      some ([(0x200, 0x6A), (0x201, 0x05)], false) ∧
    (State.reset.keyPress 15).kb = 0x8000 ∧ (State.reset.keyPress 16).kb = 0x0000 ∧
    (({ State.reset with kb := 0x0108 }.keyPress 3).keyRelease 3).kb = 0x0100 := by decide

theorem test_witness_KeyEventsSetAndClear : 16 ≤ 16 ∧ 15 < 16 := by decide

end Sys2Proof.Tests
end

section
/-! ## The reset state, read element by element

What `State.resetOf` (R34, R136) gives to each read of the state, and the obligation on the driver's reset (O53). -/

namespace Sys2Proof.Machine

/-! ### Memory right after reset -/

/-- The bytes below 80 are FONT, glyph g at 5g to 5g + 4 (R38). -/
theorem Mem.unlisted_glyph (font : Font) (g : Fin 16) (k : Fin 5) :
    Mem.unlisted font (5 * g.val + k.val) = font[g.val][k.val] := by
  have hlow : 5 * g.val + k.val < 80 := by omega
  have hglyph : (5 * g.val + k.val) / 5 = g.val := by omega
  have hrow : (5 * g.val + k.val) % 5 = k.val := by omega
  simp only [Mem.unlisted, hlow, hglyph, hrow, dite_true]

/-- The bytes from 80 on are 0 (R40). -/
theorem Mem.unlisted_above_font (font : Font) {a : Nat} (h : 80 ≤ a) : Mem.unlisted font a = 0 :=
  dif_neg (by omega)

/-- Memory lists nothing after reset, so every address holds its reset contents. -/
theorem State.resetOf_byteAt (b : Build) (n a : Nat) : (State.resetOf b n).byteAt a = Mem.unlisted b.font a := rfl

theorem State.resetOf_byteAt_glyph (b : Build) (n : Nat) (g : Fin 16) (k : Fin 5) :
    (State.resetOf b n).byteAt (5 * g.val + k.val) = b.font[g.val][k.val] := by
  rw [State.resetOf_byteAt, Mem.unlisted_glyph]

theorem State.resetOf_byteAt_above_font (b : Build) (n : Nat) {a : Nat} (h : 80 ≤ a) :
    (State.resetOf b n).byteAt a = 0 := by
  rw [State.resetOf_byteAt, Mem.unlisted_above_font b.font h]

/-! ### Registers, stack and display right after reset -/

@[simp] theorem State.resetOf_reg (b : Build) (n : Nat) (x : Reg) : (State.resetOf b n).reg x = 0 := by
  simp [State.reg, State.resetOf]

/-- A slot outside the array reads as 0 too. -/
@[simp] theorem State.resetOf_slot (b : Build) (n j : Nat) : (State.resetOf b n).slot j = 0 := by
  by_cases h : j < 16 <;> simp [State.slot, State.resetOf, h]

@[simp] theorem State.resetOf_disp_length (b : Build) (n : Nat) :
    (State.resetOf b n).disp.length = b.displayBytes := by
  simp [State.resetOf]

/-- A byte outside the display reads as 0 too. -/
@[simp] theorem State.resetOf_dispByte (b : Build) (n c : Nat) : (State.resetOf b n).dispByte c = 0 := by
  by_cases h : c < b.displayBytes <;> simp [State.dispByte, State.resetOf, List.getD_eq_getElem?_getD, h]

/-! ### The driver's reset -/

/-- Reset keeps of a session only its core's build and the count of draws used (R114; log entries 1 and 2). -/
theorem Session.drive_reset (d : Session) :
    d.drive .reset = some ⟨State.resetOf d.core.build d.core.draws, true⟩ := rfl

/-- Settles O53: the core after reset is `State.resetOf` of the build, whatever the session before; the arrays and memory
are read by the lemmas above, and the scalar elements are its fields. -/
theorem resetRestoresEveryElement : Obligations.ResetRestoresEveryElement := by
  intro d
  exact ⟨State.resetOf d.core.build d.core.draws, d.drive_reset, State.resetOf_reg _ _, rfl, rfl, rfl,
    State.resetOf_slot _ _, rfl, rfl, rfl, State.resetOf_disp_length _ _, State.resetOf_dispByte _ _, rfl, rfl,
    State.resetOf_byteAt_glyph _ _, fun _ h _ => State.resetOf_byteAt_above_font _ _ h, rfl⟩

end Sys2Proof.Machine
end

section
/-! ## Control transfer (41_control_flow.md)

Jumps and skips only write PC; which words they are is read off the class and, in format XY, the low nibble. The
obligations O22 to O25. -/

namespace Sys2Proof

/-! ### Fields of a word known under a mask -/

theorem opClass_of_masked {w m f : Word} (h : w &&& m = f) (hm : m &&& 0xF000 = 0xF000) : opClass w = opClass f := by
  rw [← h, opClass_masked w m hm]

theorem fieldN_of_masked {w m f : Word} (h : w &&& m = f) (hm : m &&& 0x000F = 0x000F) : fieldN w = fieldN f := by
  rw [← h, fieldN_masked w m hm]

/-! ### The rows of the jumps and skips (R54) -/

theorem decodeWord_jp {w : Word} (hc : opClass w = 0x1) : decodeWord w = .ok (.jp (fieldNnn w)) := by
  simp [decodeWord, hc]

theorem decodeWord_jpV0 {w : Word} (hc : opClass w = 0xB) : decodeWord w = .ok (.jpV0 (fieldNnn w)) := by
  simp [decodeWord, hc]

theorem decodeWord_seImm {w : Word} (hc : opClass w = 0x3) : decodeWord w = .ok (.seImm (fieldX w) (fieldKk w)) := by
  simp [decodeWord, hc]

theorem decodeWord_sneImm {w : Word} (hc : opClass w = 0x4) : decodeWord w = .ok (.sneImm (fieldX w) (fieldKk w)) := by
  simp [decodeWord, hc]

theorem decodeWord_seReg {w : Word} (hc : opClass w = 0x5) (hn : fieldN w = 0x0) :
    decodeWord w = .ok (.seReg (fieldX w) (fieldY w)) := by
  simp [decodeWord, hc, hn]

theorem decodeWord_sneReg {w : Word} (hc : opClass w = 0x9) (hn : fieldN w = 0x0) :
    decodeWord w = .ok (.sneReg (fieldX w) (fieldY w)) := by
  simp [decodeWord, hc, hn]

end Sys2Proof

namespace Sys2Proof.Machine

/-! ### Addresses -/

@[simp] theorem zext16_toNat (nnn : Addr12) : (zext16 nnn).toNat = nnn.toNat :=
  BitVec.toNat_setWidth_of_le (by decide)

theorem trunc16_toNat (v : Int) : (trunc16 v).toNat = (v % 65536).toNat :=
  BitVec.toNat_ofInt v

/-! ### Writes of PC alone -/

theorem State.onlyPc_setPc (s : State) (w : Word) : OnlyPc s (s.setPc w) :=
  ⟨fun _ _ => rfl, fun _ => rfl, rfl⟩

theorem State.onlyPc_skipIf (s : State) (c : Bool) : OnlyPc s (s.skipIf c) := by
  rw [State.skipIf_eq]
  exact s.onlyPc_setPc _

theorem State.skipIf_beq_pc (s : State) (a b : Byte) :
    (s.skipIf (a == b)).pc = if a = b then s.pc + 2 else s.pc := by
  simp [State.skipIf_eq]

theorem State.skipIf_bne_pc (s : State) (a b : Byte) :
    (s.skipIf (a != b)).pc = if a = b then s.pc else s.pc + 2 := by
  simp [State.skipIf_eq]

/-! ### The obligations -/

/-- Settles O22: PC takes the zero-extended address, and class 1 holds `JP` alone. -/
theorem jumpLoadsTheAddress : Obligations.JumpLoadsTheAddress := by
  refine ⟨fun s nnn => ?_, fun w hw => ?_⟩
  · exact ⟨s.setPc (zext16 nnn), rfl, zext16_toNat nnn, s.onlyPc_setPc _⟩
  · exact decodeWord_jp (opClass_of_masked hw rfl)

/-- Settles O23: V0 is below 256 and `nnn` below 4096, so their sum loses nothing in 16 bits; class B holds `JP V0`
alone. -/
theorem jumpWithOffsetAddsRegisterZero : Obligations.JumpWithOffsetAddsRegisterZero := by
  refine ⟨fun s nnn => ?_, fun w hw => ?_⟩
  · have hpc : (trunc16 ((s.reg 0x0).toNat + nnn.toNat)).toNat = (s.reg 0x0).toNat + nnn.toNat := by
      rw [trunc16_toNat]
      omega
    exact ⟨s.setPc (trunc16 ((s.reg 0x0).toNat + nnn.toNat)), rfl, hpc, s.onlyPc_setPc _⟩
  · exact decodeWord_jpV0 (opClass_of_masked hw rfl)

/-- Settles O24: each instruction is a `skipIf` on its comparison with `kk`, and classes 3 and 4 hold one instruction
each. -/
theorem skipsOnImmediate : Obligations.SkipsOnImmediate := by
  refine ⟨fun s x kk => ⟨?se, ?sne⟩, fun w => ⟨fun hw => ?seWord, fun hw => ?sneWord⟩⟩
  case se => exact ⟨s.skipIf (s.reg x == kk), rfl, s.skipIf_beq_pc _ _, s.onlyPc_skipIf _⟩
  case sne => exact ⟨s.skipIf (s.reg x != kk), rfl, s.skipIf_bne_pc _ _, s.onlyPc_skipIf _⟩
  case seWord => exact decodeWord_seImm (opClass_of_masked hw rfl)
  case sneWord => exact decodeWord_sneImm (opClass_of_masked hw rfl)

/-- Settles O25: each instruction is a `skipIf` on its comparison of two registers, and classes 5 and 9 hold one
instruction each, with low nibble 0. -/
theorem skipsOnRegisters : Obligations.SkipsOnRegisters := by
  refine ⟨fun s x y => ⟨?se, ?sne⟩, fun w => ⟨fun hw => ?seWord, fun hw => ?sneWord⟩⟩
  case se => exact ⟨s.skipIf (s.reg x == s.reg y), rfl, s.skipIf_beq_pc _ _, s.onlyPc_skipIf _⟩
  case sne => exact ⟨s.skipIf (s.reg x != s.reg y), rfl, s.skipIf_bne_pc _ _, s.onlyPc_skipIf _⟩
  case seWord => exact decodeWord_seReg (opClass_of_masked hw rfl) (fieldN_of_masked hw rfl)
  case sneWord => exact decodeWord_sneReg (opClass_of_masked hw rfl) (fieldN_of_masked hw rfl)

end Sys2Proof.Machine
end

section
/-! ## Register arithmetic and logic (42_alu.md)

Loads, sums and bitwise operations write Vx, and the sum of two registers VF after it; each write of a listed register keeps
`OnlyRegs`. The obligations O30 to O33. -/

namespace Sys2Proof

/-! ### The rows of the loads, the sums and the bitwise operations (R54) -/

theorem decodeWord_ldImm {w : Word} (hc : opClass w = 0x6) : decodeWord w = .ok (.ldImm (fieldX w) (fieldKk w)) := by
  simp [decodeWord, hc]

theorem decodeWord_addImm {w : Word} (hc : opClass w = 0x7) : decodeWord w = .ok (.addImm (fieldX w) (fieldKk w)) := by
  simp [decodeWord, hc]

theorem decodeWord_class8 {w : Word} (hc : opClass w = 0x8) : decodeWord w = decodeClass8 w := by
  simp [decodeWord, hc]

theorem decodeWord_ldReg {w : Word} (hc : opClass w = 0x8) (hn : fieldN w = 0x0) :
    decodeWord w = .ok (.ldReg (fieldX w) (fieldY w)) := by
  simp [decodeWord_class8 hc, decodeClass8, hn]

theorem decodeWord_orReg {w : Word} (hc : opClass w = 0x8) (hn : fieldN w = 0x1) :
    decodeWord w = .ok (.orReg (fieldX w) (fieldY w)) := by
  simp [decodeWord_class8 hc, decodeClass8, hn]

theorem decodeWord_andReg {w : Word} (hc : opClass w = 0x8) (hn : fieldN w = 0x2) :
    decodeWord w = .ok (.andReg (fieldX w) (fieldY w)) := by
  simp [decodeWord_class8 hc, decodeClass8, hn]

theorem decodeWord_xorReg {w : Word} (hc : opClass w = 0x8) (hn : fieldN w = 0x3) :
    decodeWord w = .ok (.xorReg (fieldX w) (fieldY w)) := by
  simp [decodeWord_class8 hc, decodeClass8, hn]

theorem decodeWord_addReg {w : Word} (hc : opClass w = 0x8) (hn : fieldN w = 0x4) :
    decodeWord w = .ok (.addReg (fieldX w) (fieldY w)) := by
  simp [decodeWord_class8 hc, decodeClass8, hn]

end Sys2Proof

namespace Sys2Proof.Machine

/-! ### Bytes of exact values, and the carry -/

theorem trunc8_toNat (v : Int) : (trunc8 v).toNat = (v % 256).toNat :=
  BitVec.toNat_ofInt v

theorem trunc8_add_toNat (a b : Byte) : (trunc8 (a.toNat + b.toNat)).toNat = (a.toNat + b.toNat) % 256 := by
  rw [trunc8_toNat]
  omega

theorem carryFlag_eq (a b : Byte) : carryFlag a b = if a.toNat + b.toNat > 0xFF then 1 else 0 := by
  simp [carryFlag, flag]

/-! ### Writes of listed registers alone -/

theorem OnlyRegs.refl (l : List Reg) (s : State) : OnlyRegs l s s :=
  ⟨fun _ _ => rfl, fun _ => rfl, rfl⟩

theorem OnlyRegs.setReg {l : List Reg} {s t : State} (h : OnlyRegs l s t) {x : Reg} (hx : x ∈ l) (b : Byte) :
    OnlyRegs l s (t.setReg x b) := by
  obtain ⟨hregs, hmem, hrest⟩ := h
  refine ⟨fun r hr => ?_, hmem, congrArg (State.setReg · x b) hrest⟩
  have hne : r ≠ x := fun e => hr (e ▸ hx)
  rw [t.reg_setReg_ne b hne, hregs r hr]

theorem State.onlyRegs_setReg (s : State) (x : Reg) (b : Byte) : OnlyRegs [x] s (s.setReg x b) :=
  (OnlyRegs.refl [x] s).setReg (by simp) b

/-- A result in Vx and then a flag in VF, where Vx may be VF. -/
theorem State.onlyRegs_setReg_flag (s : State) (x : Reg) (b f : Byte) :
    OnlyRegs [x, regF] s ((s.setReg x b).setReg regF f) :=
  ((OnlyRegs.refl [x, regF] s).setReg (by simp) b).setReg (by simp) f

/-- The flag leaves the result in Vx unless Vx is VF. -/
theorem State.reg_setReg_flag (s : State) {x : Reg} (b f : Byte) (hx : x ≠ regF) :
    ((s.setReg x b).setReg regF f).reg x = b := by
  rw [State.reg_setReg_ne _ f hx, State.reg_setReg_same]

/-! ### The obligations -/

/-- Settles O30: each load is one write of Vx, class 6 holds `LD Vx, kk` alone, and `LD Vx, Vy` has low nibble 0 in
class 8. -/
theorem loadsSetTheirRegister : Obligations.LoadsSetTheirRegister := by
  refine ⟨fun s x y kk => ⟨?imm, ?reg⟩, fun w => ⟨fun hw => ?immWord, fun hw => ?regWord⟩⟩
  case imm => exact ⟨s.setReg x kk, rfl, s.reg_setReg_same x _, s.onlyRegs_setReg x _⟩
  case reg => exact ⟨s.setReg x (s.reg y), rfl, s.reg_setReg_same x _, s.onlyRegs_setReg x _⟩
  case immWord => exact decodeWord_ldImm (opClass_of_masked hw rfl)
  case regWord => exact decodeWord_ldReg (opClass_of_masked hw rfl) (fieldN_of_masked hw rfl)

/-- Settles O31: one write of Vx with the truncated sum, and class 7 holds `ADD Vx, kk` alone. -/
theorem addImmediateWrapsWithoutFlag : Obligations.AddImmediateWrapsWithoutFlag := by
  refine ⟨fun s x kk => ?_, fun w hw => ?_⟩
  · refine ⟨s.setReg x (trunc8 ((s.reg x).toNat + kk.toNat)), rfl, ?_, s.onlyRegs_setReg x _⟩
    rw [State.reg_setReg_same, trunc8_add_toNat]
  · exact decodeWord_addImm (opClass_of_masked hw rfl)

/-- Settles O32: each operation is one write of Vx with the library's bitwise operation, and has its own low nibble in
class 8. -/
theorem logicIsBitwise : Obligations.LogicIsBitwise := by
  refine ⟨fun s x y => ⟨?or, ?and, ?xor⟩, fun w => ⟨fun hw => ?orWord, fun hw => ?andWord, fun hw => ?xorWord⟩⟩
  case or =>
    refine ⟨s.setReg x (s.reg x ||| s.reg y), rfl, fun k => ?_, s.onlyRegs_setReg x _⟩
    rw [State.reg_setReg_same, BitVec.getLsbD_or]
  case and =>
    refine ⟨s.setReg x (s.reg x &&& s.reg y), rfl, fun k => ?_, s.onlyRegs_setReg x _⟩
    rw [State.reg_setReg_same, BitVec.getLsbD_and]
  case xor =>
    refine ⟨s.setReg x (s.reg x ^^^ s.reg y), rfl, fun k => ?_, s.onlyRegs_setReg x _⟩
    rw [State.reg_setReg_same, BitVec.getLsbD_xor]
  case orWord => exact decodeWord_orReg (opClass_of_masked hw rfl) (fieldN_of_masked hw rfl)
  case andWord => exact decodeWord_andReg (opClass_of_masked hw rfl) (fieldN_of_masked hw rfl)
  case xorWord => exact decodeWord_xorReg (opClass_of_masked hw rfl) (fieldN_of_masked hw rfl)

/-- Settles O33: the write of VF comes second, so it keeps the sum in every other Vx and wins where Vx is VF; the carry is
of the values read before either write. -/
theorem addRegistersSetsCarry : Obligations.AddRegistersSetsCarry := by
  refine ⟨fun s x y => ?_, fun w hw => ?_⟩
  · refine ⟨(s.setReg x (trunc8 ((s.reg x).toNat + (s.reg y).toNat))).setReg regF (carryFlag (s.reg x) (s.reg y)), rfl,
      fun hx => ?sum, ?carry, s.onlyRegs_setReg_flag x _ _⟩
    case sum => rw [s.reg_setReg_flag _ _ hx, trunc8_add_toNat]
    case carry => rw [State.reg_setReg_same, carryFlag_eq]
  · exact decodeWord_addReg (opClass_of_masked hw rfl) (fieldN_of_masked hw rfl)

end Sys2Proof.Machine
end

section
/-! ## The index register (43_index_memory.md)

`LD I`, `ADD I` and `LD F` only write I; which words they are is read off the class and, in class F, the low byte. The
obligation O38. -/

namespace Sys2Proof

theorem fieldKk_of_masked {w m f : Word} (h : w &&& m = f) (hm : m &&& 0x00FF = 0x00FF) : fieldKk w = fieldKk f := by
  rw [← h, fieldKk_masked w m hm]

/-! ### The rows of the writes of I (R54) -/

theorem decodeWord_ldI {w : Word} (hc : opClass w = 0xA) : decodeWord w = .ok (.ldI (fieldNnn w)) := by
  simp [decodeWord, hc]

theorem decodeWord_classF {w : Word} (hc : opClass w = 0xF) : decodeWord w = decodeClassF w := by
  simp [decodeWord, hc]

theorem decodeWord_addI {w : Word} (hc : opClass w = 0xF) (hk : fieldKk w = 0x1E) :
    decodeWord w = .ok (.addI (fieldX w)) := by
  simp [decodeWord_classF hc, decodeClassF, hk]

theorem decodeWord_ldFont {w : Word} (hc : opClass w = 0xF) (hk : fieldKk w = 0x29) :
    decodeWord w = .ok (.ldFont (fieldX w)) := by
  simp [decodeWord_classF hc, decodeClassF, hk]

end Sys2Proof

namespace Sys2Proof.Machine

/-! ### Words of exact sums, and glyph addresses -/

theorem trunc16_add_toNat (a : Word) (b : Byte) :
    (trunc16 (a.toNat + b.toNat)).toNat = (a.toNat + b.toNat) % 65536 := by
  rw [trunc16_toNat]
  omega

/-- No byte is masked: the largest glyph address, 255 * 5, fits in 16 bits. -/
theorem glyphAddress_toNat (b : Byte) : (glyphAddress b).toNat = b.toNat * 5 := by
  rw [glyphAddress, trunc16_toNat]
  omega

/-! ### Writes of I alone -/

theorem State.onlyIndex_setIndex (s : State) (w : Word) : OnlyIndex s (s.setIndex w) :=
  ⟨fun _ _ => rfl, fun _ => rfl, rfl⟩

/-! ### The obligation -/

/-- Settles O38: each instruction is one write of I, class A holds `LD I` alone, and `ADD I` and `LD F` have their own
low byte in class F. -/
theorem indexRegisterInstructions : Obligations.IndexRegisterInstructions := by
  refine ⟨fun s nnn x => ⟨?ldI, ?addI, ?ldFont⟩,
    fun w => ⟨fun hw => ?ldIWord, fun hw => ?addIWord, fun hw => ?ldFontWord⟩⟩
  case ldI => exact ⟨s.setIndex (zext16 nnn), rfl, zext16_toNat nnn, s.onlyIndex_setIndex _⟩
  case addI =>
    exact ⟨s.setIndex (trunc16 (s.index.toNat + (s.reg x).toNat)), rfl, trunc16_add_toNat _ _, s.onlyIndex_setIndex _⟩
  case ldFont =>
    exact ⟨s.setIndex (glyphAddress (s.reg x)), rfl, glyphAddress_toNat _, s.onlyIndex_setIndex _⟩
  case ldIWord => exact decodeWord_ldI (opClass_of_masked hw rfl)
  case addIWord => exact decodeWord_addI (opClass_of_masked hw rfl) (fieldKk_of_masked hw rfl)
  case ldFontWord => exact decodeWord_ldFont (opClass_of_masked hw rfl) (fieldKk_of_masked hw rfl)

end Sys2Proof.Machine
end

section
/-! ## Clearing the display (44_display.md)

`CLS` only writes the display, all of it at once; its word is one of the two that class 0 holds. The obligation O43. -/

namespace Sys2Proof

/-! ### The row of CLS (R54, R55) -/

theorem decodeWord_class0 {w : Word} (hc : opClass w = 0x0) : decodeWord w = decodeClass0 w := by
  simp [decodeWord, hc]

theorem decodeClass0_eq_cls_iff (w : Word) : decodeClass0 w = .ok .cls ↔ w = 0x00E0 := by
  rw [decodeClass0]
  split_ifs with hcls hret
  · exact iff_of_true rfl hcls
  · exact iff_of_false (by simp) hcls
  · exact iff_of_false (by simp) hcls

theorem decodeClass8_ne_cls (w : Word) : decodeClass8 w ≠ .ok .cls := by
  rw [decodeClass8]
  split <;> simp

theorem decodeClassE_ne_cls (w : Word) : decodeClassE w ≠ .ok .cls := by
  rw [decodeClassE]
  split_ifs <;> simp

theorem decodeClassF_ne_cls (w : Word) : decodeClassF w ≠ .ok .cls := by
  rw [decodeClassF]
  split_ifs <;> simp

/-- No class but 0 holds `CLS`. -/
theorem decodeClass0_eq_cls_of_decodeWord {w : Word} (h : decodeWord w = .ok .cls) : decodeClass0 w = .ok .cls := by
  rw [decodeWord] at h
  split at h
  case h_1 => exact h
  case h_9 => exact absurd h (decodeClass8_ne_cls w)
  case h_15 => exact absurd h (decodeClassE_ne_cls w)
  case h_16 => exact absurd h (decodeClassF_ne_cls w)
  case h_6 | h_10 => split_ifs at h; cases h
  all_goals cases h

/-- Every bit of the word of `CLS` is fixed. -/
theorem decodeWord_eq_cls_iff (w : Word) : decodeWord w = .ok .cls ↔ w = 0x00E0 := by
  constructor
  · exact fun h => (decodeClass0_eq_cls_iff w).1 (decodeClass0_eq_cls_of_decodeWord h)
  · rintro rfl
    rw [decodeWord_class0 rfl, decodeClass0_eq_cls_iff]

end Sys2Proof

namespace Sys2Proof.Machine

/-! ### Writes of the display alone -/

theorem State.onlyDisplay_setDisp (s : State) (d : List Byte) : OnlyDisplay s (s.setDisp d) :=
  ⟨fun _ _ => rfl, fun _ => rfl, rfl⟩

/-- A byte outside the display reads as 0 too. -/
theorem State.dispByte_setDisp_zeroes (s : State) (n b : Nat) : (s.setDisp (List.replicate n 0)).dispByte b = 0 := by
  by_cases h : b < n <;> simp [State.dispByte, List.getD_eq_getElem?_getD, h]

/-! ### The obligation -/

/-- Settles O43: `CLS` is one write of a list of zero bytes, as long as the build's display; of the classes only 0 holds
`CLS`, and there at one word. -/
theorem clearZeroesTheDisplay : Obligations.ClearZeroesTheDisplay := by
  refine ⟨fun s => ?effect, decodeWord_eq_cls_iff⟩
  case effect =>
    exact ⟨s.setDisp (List.replicate s.build.displayBytes 0), rfl, List.length_replicate,
      s.dispByte_setDisp_zeroes _, s.onlyDisplay_setDisp _⟩

end Sys2Proof.Machine
end

section
/-! ## Reading the delay timer (45_keys_timers.md)

`LD Vx, DT` only writes Vx; its words are read off class F and the low byte. The obligation O49. -/

namespace Sys2Proof

/-! ### The row of LD Vx, DT (R54) -/

theorem decodeWord_ldVxDt {w : Word} (hc : opClass w = 0xF) (hk : fieldKk w = 0x07) :
    decodeWord w = .ok (.ldVxDt (fieldX w)) := by
  simp [decodeWord_classF hc, decodeClassF, hk]

end Sys2Proof

namespace Sys2Proof.Machine

/-! ### The obligation -/

/-- Settles O49: the instruction is one write of Vx with the DT of the state it runs on, which the step counts down only
afterwards; its words are those of class F with low byte 07. -/
theorem delayTimerIsRead : Obligations.DelayTimerIsRead := by
  refine ⟨fun s x => ?effect, fun w hw => ?word⟩
  case effect => exact ⟨s.setReg x s.dt, rfl, s.reg_setReg_same x _, s.onlyRegs_setReg x _⟩
  case word => exact decodeWord_ldVxDt (opClass_of_masked hw rfl) (fieldKk_of_masked hw rfl)

end Sys2Proof.Machine
end

section
/-! ## The decoder against the encoder and the table (30_encoding.md)

One lemma per row of R54 says which words it takes, by class and sub-selector; with the earlier parts' lemmas of this
kind every row has one. The encoder is then the decoder's inverse from both sides. The obligations O1 to O5. -/

namespace Sys2Proof

/-! ### The rows not yet covered (R54) -/

theorem decodeWord_cls : decodeWord 0x00E0 = .ok .cls := rfl

theorem decodeWord_ret : decodeWord 0x00EE = .ok .ret := rfl

theorem decodeWord_call {w : Word} (hc : opClass w = 0x2) : decodeWord w = .ok (.call (fieldNnn w)) := by
  simp [decodeWord, hc]

theorem decodeWord_class5_unmatched {w : Word} (hc : opClass w = 0x5) (hn : fieldN w ≠ 0x0) :
    decodeWord w = .error (.unmatched w) := by
  simpa [decodeWord, hc] using hn

theorem decodeWord_class9_unmatched {w : Word} (hc : opClass w = 0x9) (hn : fieldN w ≠ 0x0) :
    decodeWord w = .error (.unmatched w) := by
  simpa [decodeWord, hc] using hn

theorem decodeWord_subReg {w : Word} (hc : opClass w = 0x8) (hn : fieldN w = 0x5) :
    decodeWord w = .ok (.subReg (fieldX w) (fieldY w)) := by
  simp [decodeWord_class8 hc, decodeClass8, hn]

theorem decodeWord_shr {w : Word} (hc : opClass w = 0x8) (hn : fieldN w = 0x6) :
    decodeWord w = .ok (.shr (fieldX w) (fieldY w)) := by
  simp [decodeWord_class8 hc, decodeClass8, hn]

theorem decodeWord_subn {w : Word} (hc : opClass w = 0x8) (hn : fieldN w = 0x7) :
    decodeWord w = .ok (.subn (fieldX w) (fieldY w)) := by
  simp [decodeWord_class8 hc, decodeClass8, hn]

theorem decodeWord_shl {w : Word} (hc : opClass w = 0x8) (hn : fieldN w = 0xE) :
    decodeWord w = .ok (.shl (fieldX w) (fieldY w)) := by
  simp [decodeWord_class8 hc, decodeClass8, hn]

theorem decodeWord_rnd {w : Word} (hc : opClass w = 0xC) : decodeWord w = .ok (.rnd (fieldX w) (fieldKk w)) := by
  simp [decodeWord, hc]

theorem decodeWord_drw {w : Word} (hc : opClass w = 0xD) :
    decodeWord w = .ok (.drw (fieldX w) (fieldY w) (fieldN w)) := by
  simp [decodeWord, hc]

theorem decodeWord_classE {w : Word} (hc : opClass w = 0xE) : decodeWord w = decodeClassE w := by
  simp [decodeWord, hc]

theorem decodeWord_skp {w : Word} (hc : opClass w = 0xE) (hk : fieldKk w = 0x9E) :
    decodeWord w = .ok (.skp (fieldX w)) := by
  simp [decodeWord_classE hc, decodeClassE, hk]

theorem decodeWord_sknp {w : Word} (hc : opClass w = 0xE) (hk : fieldKk w = 0xA1) :
    decodeWord w = .ok (.sknp (fieldX w)) := by
  simp [decodeWord_classE hc, decodeClassE, hk]

theorem decodeWord_ldVxKey {w : Word} (hc : opClass w = 0xF) (hk : fieldKk w = 0x0A) :
    decodeWord w = .ok (.ldVxKey (fieldX w)) := by
  simp [decodeWord_classF hc, decodeClassF, hk]

theorem decodeWord_ldDtVx {w : Word} (hc : opClass w = 0xF) (hk : fieldKk w = 0x15) :
    decodeWord w = .ok (.ldDtVx (fieldX w)) := by
  simp [decodeWord_classF hc, decodeClassF, hk]

theorem decodeWord_ldStVx {w : Word} (hc : opClass w = 0xF) (hk : fieldKk w = 0x18) :
    decodeWord w = .ok (.ldStVx (fieldX w)) := by
  simp [decodeWord_classF hc, decodeClassF, hk]

theorem decodeWord_ldBcd {w : Word} (hc : opClass w = 0xF) (hk : fieldKk w = 0x33) :
    decodeWord w = .ok (.ldBcd (fieldX w)) := by
  simp [decodeWord_classF hc, decodeClassF, hk]

theorem decodeWord_storeRegs {w : Word} (hc : opClass w = 0xF) (hk : fieldKk w = 0x55) :
    decodeWord w = .ok (.storeRegs (fieldX w)) := by
  simp [decodeWord_classF hc, decodeClassF, hk]

theorem decodeWord_loadRegs {w : Word} (hc : opClass w = 0xF) (hk : fieldKk w = 0x65) :
    decodeWord w = .ok (.loadRegs (fieldX w)) := by
  simp [decodeWord_classF hc, decodeClassF, hk]

/-! ### Encoding, then decoding -/

theorem decodeWord_encode (i : Instr) : decodeWord (encode i) = .ok i := by
  cases i with
  | cls => exact decodeWord_cls
  | ret => exact decodeWord_ret
  | jp => simp [encode, decodeWord_jp]
  | call => simp [encode, decodeWord_call]
  | ldI => simp [encode, decodeWord_ldI]
  | jpV0 => simp [encode, decodeWord_jpV0]
  | seImm => simp [encode, decodeWord_seImm]
  | sneImm => simp [encode, decodeWord_sneImm]
  | ldImm => simp [encode, decodeWord_ldImm]
  | addImm => simp [encode, decodeWord_addImm]
  | rnd => simp [encode, decodeWord_rnd]
  | seReg => simp [encode, decodeWord_seReg]
  | sneReg => simp [encode, decodeWord_sneReg]
  | ldReg => simp [encode, decodeWord_ldReg]
  | orReg => simp [encode, decodeWord_orReg]
  | andReg => simp [encode, decodeWord_andReg]
  | xorReg => simp [encode, decodeWord_xorReg]
  | addReg => simp [encode, decodeWord_addReg]
  | subReg => simp [encode, decodeWord_subReg]
  | shr => simp [encode, decodeWord_shr]
  | subn => simp [encode, decodeWord_subn]
  | shl => simp [encode, decodeWord_shl]
  | drw => simp [encode, decodeWord_drw]
  | skp => simp [encode, decodeWord_skp]
  | sknp => simp [encode, decodeWord_sknp]
  | ldVxDt => simp [encode, decodeWord_ldVxDt]
  | ldVxKey => simp [encode, decodeWord_ldVxKey]
  | ldDtVx => simp [encode, decodeWord_ldDtVx]
  | ldStVx => simp [encode, decodeWord_ldStVx]
  | addI => simp [encode, decodeWord_addI]
  | ldFont => simp [encode, decodeWord_ldFont]
  | ldBcd => simp [encode, decodeWord_ldBcd]
  | storeRegs => simp [encode, decodeWord_storeRegs]
  | loadRegs => simp [encode, decodeWord_loadRegs]

/-- Settles O1: the encoder writes the class and sub-selector by which the decoder picks the row, and each field comes back
whole. -/
theorem decodeOfEncode : Obligations.DecodeOfEncode :=
  fun i => ⟨i.wellFormed_all, decodeWord_encode i⟩

/-! ### Decoding, then encoding -/

theorem nibble_cases : ∀ n : Nibble, n = 0x0 ∨ n = 0x1 ∨ n = 0x2 ∨ n = 0x3 ∨ n = 0x4 ∨ n = 0x5 ∨ n = 0x6 ∨ n = 0x7 ∨
    n = 0x8 ∨ n = 0x9 ∨ n = 0xA ∨ n = 0xB ∨ n = 0xC ∨ n = 0xD ∨ n = 0xE ∨ n = 0xF := by decide

theorem formatA_fields {w : Word} {c : Nibble} (hc : opClass w = c) : formatA c (fieldNnn w) = w := by
  rw [← hc, word_eq_formatA]

theorem formatXK_fields {w : Word} {c : Nibble} {kk : Byte} (hc : opClass w = c) (hk : fieldKk w = kk) :
    formatXK c (fieldX w) kk = w := by
  rw [← hc, ← hk, word_eq_formatXK]

theorem formatXYN_fields {w : Word} {c n : Nibble} (hc : opClass w = c) (hn : fieldN w = n) :
    formatXYN c (fieldX w) (fieldY w) n = w := by
  rw [← hc, ← hn, word_eq_formatXYN]

theorem encode_of_decodeClass0 {w : Word} {i : Instr} (h : decodeClass0 w = .ok i) : encode i = w := by
  rw [decodeClass0] at h
  split_ifs at h with hcls hret <;> cases h
  · exact hcls.symm
  · exact hret.symm

theorem encode_of_decodeClass8 {w : Word} {i : Instr} (hc : opClass w = 0x8) (h : decodeClass8 w = .ok i) :
    encode i = w := by
  rw [decodeClass8] at h
  split at h <;> cases h
  all_goals exact formatXYN_fields hc (BitVec.eq_of_toNat_eq ‹_›)

theorem encode_of_decodeClassE {w : Word} {i : Instr} (hc : opClass w = 0xE) (h : decodeClassE w = .ok i) :
    encode i = w := by
  rw [decodeClassE] at h
  split_ifs at h <;> cases h
  all_goals exact formatXK_fields hc ‹_›

theorem encode_of_decodeClassF {w : Word} {i : Instr} (hc : opClass w = 0xF) (h : decodeClassF w = .ok i) :
    encode i = w := by
  rw [decodeClassF] at h
  split_ifs at h <;> cases h
  all_goals exact formatXK_fields hc ‹_›

theorem fieldN_of_decodeWord_class5 {w : Word} {i : Instr} (hc : opClass w = 0x5) (h : decodeWord w = .ok i) :
    fieldN w = 0x0 := by
  by_contra hn
  cases (decodeWord_class5_unmatched hc hn).symm.trans h

theorem fieldN_of_decodeWord_class9 {w : Word} {i : Instr} (hc : opClass w = 0x9) (h : decodeWord w = .ok i) :
    fieldN w = 0x0 := by
  by_contra hn
  cases (decodeWord_class9_unmatched hc hn).symm.trans h

theorem encode_of_decodeWord {w : Word} {i : Instr} (h : decodeWord w = .ok i) : encode i = w := by
  rcases nibble_cases (opClass w) with hc | hc | hc | hc | hc | hc | hc | hc | hc | hc | hc | hc | hc | hc | hc | hc
  · exact encode_of_decodeClass0 (decodeWord_class0 hc ▸ h)
  · cases (decodeWord_jp hc).symm.trans h; exact formatA_fields hc
  · cases (decodeWord_call hc).symm.trans h; exact formatA_fields hc
  · cases (decodeWord_seImm hc).symm.trans h; exact formatXK_fields hc rfl
  · cases (decodeWord_sneImm hc).symm.trans h; exact formatXK_fields hc rfl
  · have hn := fieldN_of_decodeWord_class5 hc h
    cases (decodeWord_seReg hc hn).symm.trans h; exact formatXYN_fields hc hn
  · cases (decodeWord_ldImm hc).symm.trans h; exact formatXK_fields hc rfl
  · cases (decodeWord_addImm hc).symm.trans h; exact formatXK_fields hc rfl
  · exact encode_of_decodeClass8 hc (decodeWord_class8 hc ▸ h)
  · have hn := fieldN_of_decodeWord_class9 hc h
    cases (decodeWord_sneReg hc hn).symm.trans h; exact formatXYN_fields hc hn
  · cases (decodeWord_ldI hc).symm.trans h; exact formatA_fields hc
  · cases (decodeWord_jpV0 hc).symm.trans h; exact formatA_fields hc
  · cases (decodeWord_rnd hc).symm.trans h; exact formatXK_fields hc rfl
  · cases (decodeWord_drw hc).symm.trans h; exact formatXYN_fields hc rfl
  · exact encode_of_decodeClassE hc (decodeWord_classE hc ▸ h)
  · exact encode_of_decodeClassF hc (decodeWord_classF hc ▸ h)

/-- Settles O2: of each class, the word is put together again from its class and its fields. -/
theorem encodeOfDecode : Obligations.EncodeOfDecode :=
  fun _ _ => encode_of_decodeWord

/-! ### The table of match and mask -/

theorem rowOf_mem_opcodeTable (i : Instr) : rowOf i ∈ opcodeTable := by
  cases i <;> simp [rowOf, opcodeTable]

theorem rowOf_matches_encode (i : Instr) : (rowOf i).matchesWord (encode i) = true := by
  open Laws.FixedBits in
  cases i with
  | cls => exact cls
  | ret => exact ret
  | jp nnn => exact jp nnn
  | call nnn => exact call nnn
  | seImm x kk => exact seImm x kk
  | sneImm x kk => exact sneImm x kk
  | seReg x y => exact seReg x y
  | ldImm x kk => exact ldImm x kk
  | addImm x kk => exact addImm x kk
  | ldReg x y => exact ldReg x y
  | orReg x y => exact orReg x y
  | andReg x y => exact andReg x y
  | xorReg x y => exact xorReg x y
  | addReg x y => exact addReg x y
  | subReg x y => exact subReg x y
  | shr x y => exact shr x y
  | subn x y => exact subn x y
  | shl x y => exact shl x y
  | sneReg x y => exact sneReg x y
  | ldI nnn => exact ldI nnn
  | jpV0 nnn => exact jpV0 nnn
  | rnd x kk => exact rnd x kk
  | drw x y n => exact drw x y n
  | skp x => exact skp x
  | sknp x => exact sknp x
  | ldVxDt x => exact ldVxDt x
  | ldVxKey x => exact ldVxKey x
  | ldDtVx x => exact ldDtVx x
  | ldStVx x => exact ldStVx x
  | addI x => exact addI x
  | ldFont x => exact ldFont x
  | ldBcd x => exact ldBcd x
  | storeRegs x => exact storeRegs x
  | loadRegs x => exact loadRegs x

/-- A row of the table takes every word it matches. -/
theorem decodeWord_of_matchesWord {w : Word} {row : OpcodeRow} (hrow : row ∈ opcodeTable)
    (h : row.matchesWord w = true) : ∃ i, decodeWord w = .ok i ∧ rowOf i = row := by
  simp only [opcodeTable, List.mem_cons, List.not_mem_nil, or_false] at hrow
  rcases hrow with rfl | rfl | rfl | rfl | rfl | rfl | rfl | rfl | rfl | rfl | rfl | rfl | rfl | rfl | rfl | rfl | rfl |
    rfl | rfl | rfl | rfl | rfl | rfl | rfl | rfl | rfl | rfl | rfl | rfl | rfl | rfl | rfl | rfl | rfl <;>
    simp only [OpcodeRow.matchesWord, beq_iff_eq] at h
  · exact ⟨_, (BitVec.and_allOnes (x := w) ▸ h : w = 0x00E0) ▸ decodeWord_cls, rfl⟩
  · exact ⟨_, (BitVec.and_allOnes (x := w) ▸ h : w = 0x00EE) ▸ decodeWord_ret, rfl⟩
  · exact ⟨_, decodeWord_jp (opClass_of_masked h rfl), rfl⟩
  · exact ⟨_, decodeWord_call (opClass_of_masked h rfl), rfl⟩
  · exact ⟨_, decodeWord_seImm (opClass_of_masked h rfl), rfl⟩
  · exact ⟨_, decodeWord_sneImm (opClass_of_masked h rfl), rfl⟩
  · exact ⟨_, decodeWord_seReg (opClass_of_masked h rfl) (fieldN_of_masked h rfl), rfl⟩
  · exact ⟨_, decodeWord_ldImm (opClass_of_masked h rfl), rfl⟩
  · exact ⟨_, decodeWord_addImm (opClass_of_masked h rfl), rfl⟩
  · exact ⟨_, decodeWord_ldReg (opClass_of_masked h rfl) (fieldN_of_masked h rfl), rfl⟩
  · exact ⟨_, decodeWord_orReg (opClass_of_masked h rfl) (fieldN_of_masked h rfl), rfl⟩
  · exact ⟨_, decodeWord_andReg (opClass_of_masked h rfl) (fieldN_of_masked h rfl), rfl⟩
  · exact ⟨_, decodeWord_xorReg (opClass_of_masked h rfl) (fieldN_of_masked h rfl), rfl⟩
  · exact ⟨_, decodeWord_addReg (opClass_of_masked h rfl) (fieldN_of_masked h rfl), rfl⟩
  · exact ⟨_, decodeWord_subReg (opClass_of_masked h rfl) (fieldN_of_masked h rfl), rfl⟩
  · exact ⟨_, decodeWord_shr (opClass_of_masked h rfl) (fieldN_of_masked h rfl), rfl⟩
  · exact ⟨_, decodeWord_subn (opClass_of_masked h rfl) (fieldN_of_masked h rfl), rfl⟩
  · exact ⟨_, decodeWord_shl (opClass_of_masked h rfl) (fieldN_of_masked h rfl), rfl⟩
  · exact ⟨_, decodeWord_sneReg (opClass_of_masked h rfl) (fieldN_of_masked h rfl), rfl⟩
  · exact ⟨_, decodeWord_ldI (opClass_of_masked h rfl), rfl⟩
  · exact ⟨_, decodeWord_jpV0 (opClass_of_masked h rfl), rfl⟩
  · exact ⟨_, decodeWord_rnd (opClass_of_masked h rfl), rfl⟩
  · exact ⟨_, decodeWord_drw (opClass_of_masked h rfl), rfl⟩
  · exact ⟨_, decodeWord_skp (opClass_of_masked h rfl) (fieldKk_of_masked h rfl), rfl⟩
  · exact ⟨_, decodeWord_sknp (opClass_of_masked h rfl) (fieldKk_of_masked h rfl), rfl⟩
  · exact ⟨_, decodeWord_ldVxDt (opClass_of_masked h rfl) (fieldKk_of_masked h rfl), rfl⟩
  · exact ⟨_, decodeWord_ldVxKey (opClass_of_masked h rfl) (fieldKk_of_masked h rfl), rfl⟩
  · exact ⟨_, decodeWord_ldDtVx (opClass_of_masked h rfl) (fieldKk_of_masked h rfl), rfl⟩
  · exact ⟨_, decodeWord_ldStVx (opClass_of_masked h rfl) (fieldKk_of_masked h rfl), rfl⟩
  · exact ⟨_, decodeWord_addI (opClass_of_masked h rfl) (fieldKk_of_masked h rfl), rfl⟩
  · exact ⟨_, decodeWord_ldFont (opClass_of_masked h rfl) (fieldKk_of_masked h rfl), rfl⟩
  · exact ⟨_, decodeWord_ldBcd (opClass_of_masked h rfl) (fieldKk_of_masked h rfl), rfl⟩
  · exact ⟨_, decodeWord_storeRegs (opClass_of_masked h rfl) (fieldKk_of_masked h rfl), rfl⟩
  · exact ⟨_, decodeWord_loadRegs (opClass_of_masked h rfl) (fieldKk_of_masked h rfl), rfl⟩

/-- Settles O3: a decoded word is its instruction's encoding, which carries the fixed bits of the instruction's row; and a
row takes every word it matches, so a second matching row would give the word a second instruction. -/
theorem decoderAgreesWithOpcodeTable : Obligations.DecoderAgreesWithOpcodeTable := by
  refine ⟨fun w => ⟨?decoded, ?matched⟩, fun w i hi row hrow hm => ?unique⟩
  case decoded =>
    rintro ⟨i, hi⟩
    exact ⟨rowOf i, rowOf_mem_opcodeTable i, encode_of_decodeWord hi ▸ rowOf_matches_encode i⟩
  case matched =>
    rintro ⟨row, hrow, hm⟩
    obtain ⟨i, hi, -⟩ := decodeWord_of_matchesWord hrow hm
    exact ⟨i, hi⟩
  case unique =>
    obtain ⟨j, hj, rfl⟩ := decodeWord_of_matchesWord hrow hm
    rw [Except.ok.inj (hi.symm.trans hj)]

/-! ### The unmatched words (section 4) -/

theorem decodeClass0_unmatched_iff (w : Word) :
    decodeClass0 w = .error (.unmatched w) ↔ w ≠ 0x00E0 ∧ w ≠ 0x00EE := by
  rw [decodeClass0]
  split_ifs <;> simp_all

theorem decodeClass8_unmatched_iff (w : Word) :
    decodeClass8 w = .error (.unmatched w) ↔ fieldN w ∈ ([0x8, 0x9, 0xA, 0xB, 0xC, 0xD, 0xF] : List Nibble) := by
  rcases nibble_cases (fieldN w) with hn | hn | hn | hn | hn | hn | hn | hn | hn | hn | hn | hn | hn | hn | hn | hn <;>
    simp [decodeClass8, hn]

theorem decodeClassE_unmatched_iff (w : Word) :
    decodeClassE w = .error (.unmatched w) ↔ fieldKk w ∉ ([0x9E, 0xA1] : List Byte) := by
  rw [decodeClassE]
  split_ifs <;> simp_all

theorem decodeClassF_unmatched_iff (w : Word) :
    decodeClassF w = .error (.unmatched w) ↔
      fieldKk w ∉ ([0x07, 0x0A, 0x15, 0x18, 0x1E, 0x29, 0x33, 0x55, 0x65] : List Byte) := by
  rw [decodeClassF]
  split_ifs <;> simp_all

/-- Settles O4: of the 16 classes, six reject words, each by its own sub-selector. -/
theorem unmatchedWordsByClass : Obligations.UnmatchedWordsByClass := by
  intro w
  rcases nibble_cases (opClass w) with hc | hc | hc | hc | hc | hc | hc | hc | hc | hc | hc | hc | hc | hc | hc | hc
  · rw [decodeWord_class0 hc, decodeClass0_unmatched_iff]; simp [hc]
  · simp [decodeWord_jp, hc]
  · simp [decodeWord_call, hc]
  · simp [decodeWord_seImm, hc]
  · simp [decodeWord_sneImm, hc]
  · by_cases hn : fieldN w = 0x0
    · simp [decodeWord_seReg, hc, hn]
    · simpa [decodeWord_class5_unmatched hc hn, hc] using hn
  · simp [decodeWord_ldImm, hc]
  · simp [decodeWord_addImm, hc]
  · rw [decodeWord_class8 hc, decodeClass8_unmatched_iff]; simp [hc]
  · by_cases hn : fieldN w = 0x0
    · simp [decodeWord_sneReg, hc, hn]
    · simpa [decodeWord_class9_unmatched hc hn, hc] using hn
  · simp [decodeWord_ldI, hc]
  · simp [decodeWord_jpV0, hc]
  · simp [decodeWord_rnd, hc]
  · simp [decodeWord_drw, hc]
  · rw [decodeWord_classE hc, decodeClassE_unmatched_iff]; simp [hc]
  · rw [decodeWord_classF hc, decodeClassF_unmatched_iff]; simp [hc]

/-- Settles O5: the decoder evaluated on the eight words. -/
theorem sampleWordsDecode : Obligations.SampleWordsDecode :=
  ⟨rfl, rfl, rfl, rfl, rfl, rfl, rfl, rfl⟩

end Sys2Proof
end

section
/-! ## An instruction as one check and one effect

Every arm of `exec` has one shape: a check that may find a fault, and else an effect on the state (R66). This part gives
both, and says once which elements each effect writes (section 13 of 10_state.md). The obligations O17 and O18. -/

namespace Sys2Proof.Machine

/-! ### The normal form of `exec` -/

/-- What the checks of an instruction find (R124); most check nothing. -/
def faultOf (i : Instr) (s : State) : Option Cause :=
  match i with
  | .ret => stackFault? s.sp.toNat
  | .call _ => stackFault? (s.sp + 1).toNat
  | .drw x y n => drawFault? s (s.reg x).toNat (s.reg y).toNat 0 n.toNat
  | .ldBcd _ => memFault? s.index.toNat 3
  | .storeRegs x | .loadRegs x => memFault? s.index.toNat (x.toNat + 1)
  | _ => none

/-- The effect of an instruction whose checks find nothing. -/
def effectOf (i : Instr) (s : State) : State :=
  match i with
  | .cls => s.setDisp (List.replicate s.build.displayBytes 0)
  | .ret => (s.setPc (s.slot s.sp.toNat)).setSp (s.sp - 1)
  | .jp nnn => s.setPc (zext16 nnn)
  | .call nnn => ((s.setSp (s.sp + 1)).setSlot (s.sp + 1).toNat s.pc).setPc (zext16 nnn)
  | .seImm x kk => s.skipIf (s.reg x == kk)
  | .sneImm x kk => s.skipIf (s.reg x != kk)
  | .seReg x y => s.skipIf (s.reg x == s.reg y)
  | .sneReg x y => s.skipIf (s.reg x != s.reg y)
  | .ldImm x kk => s.setReg x kk
  | .addImm x kk => s.setReg x (trunc8 ((s.reg x).toNat + kk.toNat))
  | .ldReg x y => s.setReg x (s.reg y)
  | .orReg x y => s.setReg x (s.reg x ||| s.reg y)
  | .andReg x y => s.setReg x (s.reg x &&& s.reg y)
  | .xorReg x y => s.setReg x (s.reg x ^^^ s.reg y)
  | .addReg x y =>
    (s.setReg x (trunc8 ((s.reg x).toNat + (s.reg y).toNat))).setReg regF (carryFlag (s.reg x) (s.reg y))
  | .subReg x y => s.subtractInto x (s.reg x) (s.reg y)
  | .shr x y => (s.shrHalf x y).subnEffect x y
  | .subn x y => s.subnEffect x y
  | .shl x y =>
    (s.setReg regF (highBitFlag (s.reg y))).setReg x ((s.setReg regF (highBitFlag (s.reg y))).reg y <<< 1)
  | .ldI nnn => s.setIndex (zext16 nnn)
  | .jpV0 nnn => s.setPc (trunc16 ((s.reg reg0).toNat + nnn.toNat))
  | .rnd x kk => s.setReg x (Config.rnd s.draws &&& kk)
  | .drw x y n =>
    (s.setDisp (s.drawRows (s.reg x).toNat (s.reg y).toNat n.toNat).disp).setHit
      (s.drawRows (s.reg x).toNat (s.reg y).toNat n.toNat).hit
  | .skp x => s.skipIf (keyHeld s.kb (s.reg x))
  | .sknp x => s.skipIf (keyAboveHeld s.kb (s.reg x))
  | .ldVxDt x => s.setReg x s.dt
  | .ldVxKey _ => s.setPc (s.pc - 2)
  | .ldDtVx x => s.setDt (s.reg x)
  | .ldStVx x => s.setSt (s.reg x)
  | .addI x => s.setIndex (trunc16 (s.index.toNat + (s.reg x).toNat))
  | .ldFont x => s.setIndex (glyphAddress (s.reg x))
  | .ldBcd x =>
    ((s.setByte (s.indexed 0) (hundreds (s.reg x))).setByte (s.indexed 1) (tens (s.reg x))).setByte
      (s.indexed 2) (units (s.reg x))
  | .storeRegs x => (s.storeFrom (x.toNat + 1)).setIndex (trunc16 (s.index.toNat + x.toNat + 1))
  | .loadRegs x => s.loadFrom (x.toNat + 1)

/-- `LD Vx, K` alone needs a reason: its other branch is never taken (log entry 6). -/
theorem exec_eq (i : Instr) (s : State) : exec i s = unlessFault (faultOf i s) (.next (effectOf i s)) := by
  cases i with
  | ldVxKey x => exact execLdVxKey_eq x s
  | _ => rfl

theorem exec_of_no_fault {i : Instr} {s : State} (h : faultOf i s = none) : exec i s = .next (effectOf i s) := by
  rw [exec_eq, h]
  rfl

theorem exec_of_fault {i : Instr} {s : State} {c : Cause} (h : faultOf i s = some c) :
    exec i s = .fault (.raised c) := by
  rw [exec_eq, h]
  rfl

theorem exec_next_iff {i : Instr} {s t : State} : exec i s = .next t ↔ faultOf i s = none ∧ t = effectOf i s := by
  rw [exec_eq, unlessFault_next, Host.Outcome.next.injEq, eq_comm (a := t)]

/-! ### The elements an instruction writes -/

/-- The elements of the state that some instruction writes (section 1 of 10_state.md). -/
inductive Element where
  | pc | regs | mem | disp | sp | stack | index | dt | st
  deriving DecidableEq, Repr

/-- What each instruction writes (section 13 of 10_state.md). The advanced PC counts as what was there before. -/
@[simp] def elementsWritten : Instr → List Element
  | .cls => [.disp]
  | .ret => [.pc, .sp]
  | .call _ => [.pc, .sp, .stack]
  | .jp _ | .jpV0 _ | .seImm _ _ | .sneImm _ _ | .seReg _ _ | .sneReg _ _ | .skp _ | .sknp _ | .ldVxKey _ => [.pc]
  | .ldImm _ _ | .addImm _ _ | .rnd _ _ | .ldReg _ _ | .orReg _ _ | .andReg _ _ | .xorReg _ _ | .addReg _ _
  | .subReg _ _ | .shr _ _ | .subn _ _ | .shl _ _ | .ldVxDt _ | .loadRegs _ => [.regs]
  | .drw _ _ _ => [.regs, .disp]
  | .ldI _ | .addI _ | .ldFont _ => [.index]
  | .ldBcd _ => [.mem]
  | .storeRegs _ => [.mem, .index]
  | .ldDtVx _ => [.dt]
  | .ldStVx _ => [.st]

/-- Every element that differs between two states is a listed one. -/
structure WritesOnly (es : List Element) (s t : State) : Prop where
  pc : t.pc ≠ s.pc → .pc ∈ es
  regs : t.v ≠ s.v → .regs ∈ es
  mem : t.mem ≠ s.mem → .mem ∈ es
  disp : t.disp ≠ s.disp → .disp ∈ es
  sp : t.sp ≠ s.sp → .sp ∈ es
  stack : t.stack ≠ s.stack → .stack ∈ es
  index : t.index ≠ s.index → .index ∈ es
  dt : t.dt ≠ s.dt → .dt ∈ es
  st : t.st ≠ s.st → .st ∈ es

namespace WritesOnly

variable {es : List Element} {s t : State}

theorem refl (es : List Element) (s : State) : WritesOnly es s s := by
  constructor <;> exact fun h => absurd rfl h

theorem setReg (h : WritesOnly es s t) (he : .regs ∈ es) (x : Reg) (b : Byte) : WritesOnly es s (t.setReg x b) :=
  { h with regs := fun _ => he }

theorem setPc (h : WritesOnly es s t) (he : .pc ∈ es) (w : Word) : WritesOnly es s (t.setPc w) :=
  { h with pc := fun _ => he }

theorem setSp (h : WritesOnly es s t) (he : .sp ∈ es) (b : Byte) : WritesOnly es s (t.setSp b) :=
  { h with sp := fun _ => he }

theorem setSlot (h : WritesOnly es s t) (he : .stack ∈ es) (j : Nat) (w : Word) : WritesOnly es s (t.setSlot j w) :=
  { h with stack := fun _ => he }

theorem setIndex (h : WritesOnly es s t) (he : .index ∈ es) (w : Word) : WritesOnly es s (t.setIndex w) :=
  { h with index := fun _ => he }

theorem setDt (h : WritesOnly es s t) (he : .dt ∈ es) (b : Byte) : WritesOnly es s (t.setDt b) :=
  { h with dt := fun _ => he }

theorem setSt (h : WritesOnly es s t) (he : .st ∈ es) (b : Byte) : WritesOnly es s (t.setSt b) :=
  { h with st := fun _ => he }

theorem setDisp (h : WritesOnly es s t) (he : .disp ∈ es) (d : List Byte) : WritesOnly es s (t.setDisp d) :=
  { h with disp := fun _ => he }

theorem setByte (h : WritesOnly es s t) (he : .mem ∈ es) (a : Nat) (b : Byte) : WritesOnly es s (t.setByte a b) :=
  { h with mem := fun _ => he }

theorem skipIf (h : WritesOnly es s t) (he : .pc ∈ es) (c : Bool) : WritesOnly es s (t.skipIf c) := by
  rw [State.skipIf_eq]
  exact h.setPc he _

theorem setHit (h : WritesOnly es s t) (he : .regs ∈ es) (hit : Bool) : WritesOnly es s (t.setHit hit) := by
  cases hit
  · exact h
  · exact h.setReg he _ _

theorem storeFrom (h : WritesOnly es s t) (he : .mem ∈ es) (n : Nat) : WritesOnly es s (t.storeFrom n) := by
  rw [State.storeFrom_eq]
  exact { h with mem := fun _ => he }

theorem loadFrom (h : WritesOnly es s t) (he : .regs ∈ es) (n : Nat) : WritesOnly es s (t.loadFrom n) := by
  rw [State.loadFrom_eq]
  exact { h with regs := fun _ => he }

end WritesOnly

/-- Two writes of registers are all that `SUB`, and with it `SUBN` and the second half of `SHR`, does. -/
theorem WritesOnly.subtractInto {es : List Element} {s t : State} (h : WritesOnly es s t) (he : .regs ∈ es) (x : Reg)
    (a b : Byte) : WritesOnly es s (t.subtractInto x a b) :=
  (h.setReg he _ _).setReg he _ _

theorem effectOf_writesOnly (i : Instr) (s : State) : WritesOnly (elementsWritten i) s (effectOf i s) := by
  have unchanged : WritesOnly (elementsWritten i) s s := .refl _ s
  cases i with
  | cls => exact unchanged.setDisp (by simp) _
  | ret => exact (unchanged.setPc (by simp) _).setSp (by simp) _
  | call =>
    exact ((unchanged.setSp (by simp) _).setSlot (by simp) _ _).setPc
      (by simp) _
  | jp | jpV0 | ldVxKey => exact unchanged.setPc (by simp) _
  | seImm | sneImm | seReg | sneReg | skp | sknp => exact unchanged.skipIf (by simp) _
  | ldImm | addImm | rnd | ldReg | orReg | andReg | xorReg | ldVxDt =>
    exact unchanged.setReg (by simp) _ _
  | addReg | shl => exact (unchanged.setReg (by simp) _ _).setReg (by simp) _ _
  | subReg | subn => exact unchanged.subtractInto (by simp) _ _ _
  | shr =>
    exact ((unchanged.setReg (by simp) _ _).setReg (by simp) _ _).subtractInto
      (by simp) _ _ _
  | loadRegs => exact unchanged.loadFrom (by simp) _
  | drw => exact (unchanged.setDisp (by simp) _).setHit (by simp) _
  | ldI | addI | ldFont => exact unchanged.setIndex (by simp) _
  | ldBcd =>
    exact ((unchanged.setByte (by simp) _ _).setByte (by simp) _ _).setByte
      (by simp) _ _
  | storeRegs => exact (unchanged.storeFrom (by simp) _).setIndex (by simp) _
  | ldDtVx => exact unchanged.setDt (by simp) _
  | ldStVx => exact unchanged.setSt (by simp) _

theorem exec_writesOnly {i : Instr} {s t : State} (h : exec i s = .next t) : WritesOnly (elementsWritten i) s t := by
  obtain ⟨-, rfl⟩ := exec_next_iff.1 h
  exact effectOf_writesOnly i s

/-! ### The obligations -/

/-- Settles O17: an element that differs is in the instruction's list, and the lists that name an element are those of the
instructions the clause gives. -/
theorem elementsChangeOnlyByTheirInstructions : Obligations.ElementsChangeOnlyByTheirInstructions := by
  intro i s t h
  have hw := exec_writesOnly h
  refine ⟨fun hne => ?pc, fun hne => ?regs, fun hne => ?mem, fun hne => ?disp, fun hne => ?sp, fun hne => ?stack,
    fun hne => ?index, fun hne => ?dt, fun hne => ?st, exec_keeps h⟩
  case pc => have hmem := hw.pc hne; cases i <;> simp at hmem ⊢
  case regs => have hmem := hw.regs hne; cases i <;> simp at hmem ⊢
  case mem => have hmem := hw.mem hne; cases i <;> simp at hmem ⊢
  case disp => have hmem := hw.disp hne; cases i <;> simp at hmem ⊢
  case sp => have hmem := hw.sp hne; cases i <;> simp at hmem ⊢
  case stack => have hmem := hw.stack hne; cases i <;> simp at hmem ⊢
  case index => have hmem := hw.index hne; cases i <;> simp at hmem ⊢
  case dt => have hmem := hw.dt hne; cases i <;> simp at hmem ⊢
  case st => have hmem := hw.st hne; cases i <;> simp at hmem ⊢

/-- A write of another register leaves VF. -/
theorem eq_regF_of_setReg_ne {s : State} {x : Reg} {b : Byte} (h : (s.setReg x b).reg regF ≠ s.reg regF) :
    x = regF := by
  by_contra hx
  exact h (s.reg_setReg_ne b (Ne.symm hx))

/-- The loads of `Fx65` reach VF only when x is F. -/
theorem eq_regF_of_loadFrom_ne {s : State} {x : Reg} (h : (s.loadFrom (x.toNat + 1)).reg regF ≠ s.reg regF) :
    x = regF := by
  rw [s.reg_loadFrom _ (by omega)] at h
  have hx : (15 : Nat) < x.toNat + 1 := by
    by_contra hlt
    exact h (if_neg hlt)
  exact BitVec.eq_of_toNat_eq (show x.toNat = 15 by omega)

/-- Settles O18: VF is a register, so the instruction is one of those that write registers; of these, each that does not
write VF as a flag writes Vx alone, or V0 to Vx. -/
theorem flagChangesOnlyByItsInstructions : Obligations.FlagChangesOnlyByItsInstructions := by
  intro i s t h hne
  obtain ⟨-, rfl⟩ := exec_next_iff.1 h
  have hregs : .regs ∈ elementsWritten i := (effectOf_writesOnly i s).regs fun hv => hne (State.reg_congr hv regF)
  cases i with
  | ldImm | addImm | rnd | ldReg | orReg | andReg | xorReg | ldVxDt => cases eq_regF_of_setReg_ne hne; simp
  | loadRegs => cases eq_regF_of_loadFrom_ne hne; simp
  | addReg | subReg | shr | subn | shl | drw => simp
  | _ => simp at hregs

end Sys2Proof.Machine
end

section
/-! ## The step around its instruction (40_cycle.md)

What a step answers, by what it fetches and what that word decodes to. The obligations O6 to O12. -/

namespace Sys2Proof.Machine

/-! ### The phases -/

theorem fetch_of_lt {s : State} (h : s.pc.toNat + 1 < 4096) :
    fetch s = .ok (wordOfBytes (s.byteAt s.pc.toNat) (s.byteAt (s.pc.toNat + 1))) :=
  if_pos h

theorem fetch_of_ge {s : State} (h : 4096 ≤ s.pc.toNat + 1) : fetch s = .error (.fetchOob s.pc.toNat) :=
  if_neg (Nat.not_lt.2 h)

theorem execute_of_decoded {w : Word} {i : Instr} (h : decodeWord w = .ok i) (s : State) : execute w s = exec i s := by
  simp [execute, h]

theorem execute_of_unmatched {w : Word} {e : DecodeError} (h : decodeWord w = .error e) (s : State) :
    execute w s = .next s := by
  simp [execute, h, execUnmatched]

theorem step_of_faulted {s : State} {r : FaultRecord} (h : s.fault = some r) : step s = .fault (.stopped r) := by
  simp [step, h, stoppedStep]

theorem step_of_fetched {s : State} {w : Word} (h : s.fault = none) (hf : fetch s = .ok w) :
    step s = settle s w (execute w s.preAdvance) := by
  simp [step, h, runningStep, hf]

theorem step_of_fetch_failed {s : State} {c : Cause} (h : s.fault = none) (hf : fetch s = .error c) :
    step s = .next (s.takeFault none c) := by
  simp [step, h, runningStep, hf]

/-- A step that answers a next state ran a core that held no record. -/
theorem running_of_step_next {s t : State} (h : step s = .next t) : s.fault = none := by
  cases hf : s.fault with
  | none => rfl
  | some r => cases (step_of_faulted hf).symm.trans h

theorem countDown_toNat (b : Byte) : (countDown b).toNat = b.toNat - 1 := by
  rw [countDown]
  split <;> bv_omega

/-! ### The obligations on the phases -/

/-- Settles O6: the fetch gives `w`, so the step settles what `exec i` answers on the advanced state. -/
theorem stepRunsDecodedInstruction : Obligations.StepRunsDecodedInstruction := by
  intro s w i hs hp hw hd
  have hstep : step s = settle s w (exec i s.preAdvance) := by
    rw [step_of_fetched hs (fetch_of_lt hp), ← hw, execute_of_decoded hd]
  refine ⟨fun t ht => ?_, fun c hc => ?_⟩
  · exact hstep.trans (congrArg (settle s w) ht)
  · exact hstep.trans (congrArg (settle s w) hc)

/-- Settles O7: the word's effect is none, so the step is the pre-advance and the end of the step. -/
theorem unmatchedWordOnlyAdvances : Obligations.UnmatchedWordOnlyAdvances := by
  intro s w hs hp hw hd
  have hstep : step s = .next s.preAdvance.endStep := by
    rw [step_of_fetched hs (fetch_of_lt hp), ← hw, execute_of_unmatched hd]
    rfl
  exact ⟨_, hstep, rfl, countDown_toNat s.dt, countDown_toNat s.st, rfl, fun _ _ => rfl, fun _ => rfl, rfl⟩

/-- Settles O8: the two bytes below 4096 make the word high byte first; else the fetch fails and the step takes the
fault. -/
theorem fetchIsBigEndianOrFaults : Obligations.FetchIsBigEndianOrFaults := by
  refine ⟨fun s hp => ?_, fun s hs hp => ?_⟩
  · exact ⟨_, fetch_of_lt hp, wordOfBytes_toNat _ _⟩
  · exact step_of_fetch_failed hs (fetch_of_ge hp)

/-- Settles O10: `step` looks at the record first. -/
theorem faultedCoreTakesNoStep : Obligations.FaultedCoreTakesNoStep := by
  intro s r h
  have hstep := step_of_faulted h
  exact ⟨hstep, by simp [State.afterStepRequest, hstep]⟩

/-! ### What any step can do -/

/-- The record a faulting step sets (R126): it holds the PC, no word exactly for a failed fetch, and a genuine cause. -/
structure FaultRecord.Exact (s : State) (r : FaultRecord) : Prop where
  pc : r.pc = s.pc
  word : r.word = none ↔ r.cause = .fetchOob s.pc.toNat
  genuine : r.cause.genuine s.build

/-- A step of a running core completes its word's effect, or sets an exact record and changes nothing else. -/
theorem step_completes_or_faults {s : State} (h : s.fault = none) :
    (∃ w t, fetch s = .ok w ∧ execute w s.preAdvance = .next t ∧ step s = .next t.endStep) ∨
      ∃ r, r.Exact s ∧ step s = .next { s with fault := some r } := by
  rcases step_cases h with ⟨hp, hstep⟩ | ⟨w, -, hf, ⟨t, ht, hstep⟩ | ⟨c, -, hstep, hg, hne⟩⟩
  · exact .inr ⟨⟨.fetchOob s.pc.toNat, s.pc, none⟩, ⟨rfl, iff_of_true rfl rfl, hp⟩, hstep⟩
  · exact .inl ⟨w, t, hf, ht, hstep⟩
  · exact .inr ⟨⟨c, s.pc, some w⟩, ⟨rfl, iff_of_false nofun (hne _), hg⟩, hstep⟩

/-- A completed effect leaves the record unset. -/
theorem fault_of_execute {w : Word} {s t : State} (h : s.fault = none) (ht : execute w s.preAdvance = .next t) :
    t.fault = none := by
  obtain ⟨-, -, hfault, -, -⟩ := execute_keeps ht
  exact hfault.trans h

/-- Settles O9: a step that completes leaves no record, so this one took the fault, and its record is exact. -/
theorem faultingStepCommitsNothing : Obligations.FaultingStepCommitsNothing := by
  intro s t r hs hstep hr
  rcases step_completes_or_faults hs with ⟨w, u, -, hu, h⟩ | ⟨r', ⟨hpc, hword, hgen⟩, h⟩ <;>
    cases h.symm.trans hstep
  · have hnone : u.fault = none := fault_of_execute hs hu
    exact absurd (hnone.symm.trans hr) nofun
  · cases hr
    exact ⟨rfl, hpc, hword, hgen⟩

/-- Settles O11: both ways a running core's step can go answer a next state. -/
theorem runningStepAlwaysCompletes : Obligations.RunningStepAlwaysCompletes := by
  intro s hs
  rcases step_completes_or_faults hs with ⟨w, u, -, hu, h⟩ | ⟨r, -, h⟩
  · obtain ⟨-, hticks, -, -, -⟩ := execute_keeps hu
    have hnone : u.fault = none := fault_of_execute hs hu
    exact ⟨_, h, .inl ⟨hnone, congrArg (· + 1) hticks⟩⟩
  · exact ⟨_, h, .inr ⟨r, rfl⟩⟩

/-! ### The timers -/

theorem exec_dt_of_ne {i : Instr} {s t : State} (h : exec i s = .next t) (hi : ∀ x, i ≠ .ldDtVx x) : t.dt = s.dt := by
  by_contra hne
  have hmem := (exec_writesOnly h).dt hne
  cases i <;> simp at hmem hi

theorem exec_st_of_ne {i : Instr} {s t : State} (h : exec i s = .next t) (hi : ∀ x, i ≠ .ldStVx x) : t.st = s.st := by
  by_contra hne
  have hmem := (exec_writesOnly h).st hne
  cases i <;> simp at hmem hi

/-- DT as a word's effect leaves it, before the countdown. -/
theorem execute_dt {w : Word} {s t : State} (h : execute w s = .next t) :
    t.dt = (match decodeWord w with | .ok (.ldDtVx x) => s.reg x | _ => s.dt) := by
  split
  · next x hd =>
    cases (execute_of_decoded hd s).symm.trans h
    rfl
  · next hne =>
    cases hd : decodeWord w with
    | error e => cases (execute_of_unmatched hd s).symm.trans h; rfl
    | ok i => exact exec_dt_of_ne ((execute_of_decoded hd s).symm.trans h) fun x hx => hne x (hx ▸ hd)

/-- ST as a word's effect leaves it, before the countdown. -/
theorem execute_st {w : Word} {s t : State} (h : execute w s = .next t) :
    t.st = (match decodeWord w with | .ok (.ldStVx x) => s.reg x | _ => s.st) := by
  split
  · next x hd =>
    cases (execute_of_decoded hd s).symm.trans h
    rfl
  · next hne =>
    cases hd : decodeWord w with
    | error e => cases (execute_of_unmatched hd s).symm.trans h; rfl
    | ok i => exact exec_st_of_ne ((execute_of_decoded hd s).symm.trans h) fun x hx => hne x (hx ▸ hd)

/-- Settles O12: a step without a record completed its effect, and the end of the step counts down what that left. -/
theorem timersCountDownOncePerStep : Obligations.TimersCountDownOncePerStep := by
  intro s t w hs hf hstep ht
  rcases step_completes_or_faults hs with ⟨w', u, hf', hu, h⟩ | ⟨r, -, h⟩ <;> cases h.symm.trans hstep
  · cases hf'.symm.trans hf
    exact ⟨(countDown_toNat u.dt).trans (congrArg (·.toNat - 1) (execute_dt hu)),
      (countDown_toNat u.st).trans (congrArg (·.toNat - 1) (execute_st hu))⟩
  · cases ht

end Sys2Proof.Machine
end

section
/-! ## The canonical form of memory, and the fetch of a stored word (20_memory.md)

The obligations O20 and O21. -/

namespace Sys2Proof.Machine

theorem Mem.wfFrom_cons {font : Font} {lo b : Nat} {w : Byte} {rest : List Host.Cell} :
    Mem.wfFrom font lo ((b, w) :: rest) = true ↔
      lo ≤ b ∧ b < memSize ∧ w ≠ Mem.unlisted font b ∧ Mem.wfFrom font (b + 1) rest = true := by
  simp [Mem.wfFrom, and_assoc]

theorem Mem.read_cons_same (font : Font) (b : Nat) (w : Byte) (rest : List Host.Cell) :
    Mem.read font ((b, w) :: rest) b = w := by
  simp [Mem.read]

theorem Mem.read_cons_ne (font : Font) {a b : Nat} (w : Byte) (rest : List Host.Cell) (h : a ≠ b) :
    Mem.read font ((b, w) :: rest) a = Mem.read font rest a := by
  simp [Mem.read, h]

/-- Below the first address a canonical list may hold, every address reads as its reset contents. -/
theorem Mem.read_of_wfFrom_lt {font : Font} {lo a : Nat} {m : List Host.Cell} (hm : Mem.wfFrom font lo m = true)
    (ha : a < lo) : Mem.read font m a = Mem.unlisted font a := by
  induction m generalizing lo with
  | nil => rfl
  | cons cell rest ih =>
    obtain ⟨b, w⟩ := cell
    obtain ⟨hlo, -, -, hrest⟩ := Mem.wfFrom_cons.1 hm
    rw [Mem.read_cons_ne font w rest (by omega), ih hrest (by omega)]

/-- The first listed byte differs from the reset contents, so a list that begins only after it reads otherwise there. -/
theorem Mem.read_cons_ne_read_of_wfFrom {font : Font} {lo b : Nat} {w : Byte} {rest m : List Host.Cell}
    (hcons : Mem.wfFrom font lo ((b, w) :: rest) = true) (hm : Mem.wfFrom font (b + 1) m = true) :
    Mem.read font ((b, w) :: rest) b ≠ Mem.read font m b := by
  obtain ⟨-, -, hw, -⟩ := Mem.wfFrom_cons.1 hcons
  rwa [Mem.read_cons_same, Mem.read_of_wfFrom_lt hm (by omega)]

theorem Mem.eq_of_read_eq {font : Font} {lo lo' : Nat} {m m' : List Host.Cell} (hm : Mem.wfFrom font lo m = true)
    (hm' : Mem.wfFrom font lo' m' = true) (h : ∀ a, Mem.read font m a = Mem.read font m' a) : m = m' := by
  induction m generalizing lo lo' m' with
  | nil =>
    cases m' with
    | nil => rfl
    | cons cell rest' => exact absurd (h cell.1).symm (Mem.read_cons_ne_read_of_wfFrom hm' rfl)
  | cons cell rest ih =>
    obtain ⟨b, w⟩ := cell
    cases m' with
    | nil => exact absurd (h b) (Mem.read_cons_ne_read_of_wfFrom hm rfl)
    | cons cell' rest' =>
      obtain ⟨b', w'⟩ := cell'
      obtain ⟨-, hb, hw, hrest⟩ := Mem.wfFrom_cons.1 hm
      obtain ⟨-, hb', hw', hrest'⟩ := Mem.wfFrom_cons.1 hm'
      rcases Nat.lt_trichotomy b b' with hlt | rfl | hgt
      · exact absurd (h b) (Mem.read_cons_ne_read_of_wfFrom hm (Mem.wfFrom_cons.2 ⟨hlt, hb', hw', hrest'⟩))
      · have hhead : w = w' := by simpa only [Mem.read_cons_same] using h b
        have htail (a : Nat) : Mem.read font rest a = Mem.read font rest' a := by
          by_cases ha : a = b
          · subst ha
            rw [Mem.read_of_wfFrom_lt hrest (by omega), Mem.read_of_wfFrom_lt hrest' (by omega)]
          · simpa only [Mem.read_cons_ne font _ _ ha] using h a
        rw [hhead, ih hrest hrest' htail]
      · exact absurd (h b').symm (Mem.read_cons_ne_read_of_wfFrom hm' (Mem.wfFrom_cons.2 ⟨hgt, hb, hw, hrest⟩))

/-- Settles O20: by induction on the first list; the lower of two different first addresses would read unlike. -/
theorem memoriesThatReadAlikeAreEqual : Obligations.MemoriesThatReadAlikeAreEqual :=
  fun _ _ _ hm hm' h => Mem.eq_of_read_eq hm hm' h

/-- Settles O21: the fetch reads the two bytes just stored, which make the word again. -/
theorem storedWordIsFetched : Obligations.StoredWordIsFetched := by
  intro s w hp
  rw [fetch_of_lt (by simpa using hp)]
  simp [State.byteAt_setByte]

end Sys2Proof.Machine
end

section
/-! ## What every step and every driver operation keeps (10_state.md, 50_interface.md)

Each invariant is kept by an instruction, hence by a step, hence by every sequence of driver operations. The obligations
O13 to O16. -/

namespace Sys2Proof.Machine

/-! ### The core's invariant -/

theorem Inv.of_running {s : State} (hb : s.build.wellFormed = true) (hm : Mem.wf s.build.font s.mem = true)
    (hd : s.disp.length = s.build.displayBytes) (hf : s.fault = none) : Inv s :=
  ⟨hb, hm, hd, by simp [hf], by simp [hf], by simp [hf]⟩

theorem Inv.withMem {s : State} (h : Inv s) {m : List Host.Cell} (hm : Mem.wf s.build.font m = true) :
    Inv { s with mem := m } :=
  { h with mem_ok := hm }

theorem Inv.withKb {s : State} (h : Inv s) (kb : Word) : Inv { s with kb := kb } :=
  { h with }

theorem Inv.withFault {s : State} (h : Inv s) {r : FaultRecord} (hr : r.Exact s) : Inv { s with fault := some r } := by
  refine { h with fault_pc := ?_, fault_word := ?_, fault_genuine := ?_ } <;> rintro _ ⟨⟩
  · exact hr.pc
  · exact hr.word
  · exact hr.genuine

theorem Inv.endStep {s : State} (h : Inv s) : Inv s.endStep :=
  { h with }

theorem Inv.preAdvance {s : State} (h : Inv s) (hf : s.fault = none) : Inv s.preAdvance :=
  .of_running h.build_ok h.mem_ok h.disp_ok hf

theorem inv_resetOf {b : Build} (n : Nat) (hb : b.wellFormed = true) : Inv (State.resetOf b n) :=
  .of_running hb (Mem.wf_reset b n) (State.resetOf_disp_length b n) rfl

@[simp] theorem State.setHit_disp (s : State) (hit : Bool) : (s.setHit hit).disp = s.disp := by
  cases hit <;> rfl

/-- Every byte of a checked access lies in memory. -/
theorem State.indexed_lt (s : State) {count k : Nat} (h : memFault? s.index.toNat count = none) (hk : k < count) :
    s.indexed k < memSize :=
  (Nat.add_lt_add_left hk _).trans_le (memFault?_none.1 h)

/-- An instruction that stores has checked its last address (R66). -/
theorem exec_mem_wf {i : Instr} {s t : State} (h : exec i s = .next t) (hm : Mem.wf s.build.font s.mem = true) :
    Mem.wf s.build.font t.mem = true := by
  by_cases hmem : t.mem = s.mem
  · rwa [hmem]
  have hwrites := (exec_writesOnly h).mem hmem
  obtain ⟨hnone, rfl⟩ := exec_next_iff.1 h
  cases i with
  | ldBcd x =>
    have h0 := s.setByte_wf (hundreds (s.reg x)) (s.indexed_lt (k := 0) hnone (by omega)) hm
    have h1 := State.setByte_wf _ (tens (s.reg x)) (s.indexed_lt (k := 1) hnone (by omega)) h0
    exact State.setByte_wf _ (units (s.reg x)) (s.indexed_lt (k := 2) hnone (by omega)) h1
  | storeRegs x => exact s.storeFrom_wf _ (memFault?_none.1 hnone) hm
  | _ => simp at hwrites

theorem exec_disp_length {i : Instr} {s t : State} (h : exec i s = .next t)
    (hd : s.disp.length = s.build.displayBytes) : t.disp.length = s.build.displayBytes := by
  by_cases hdisp : t.disp = s.disp
  · rwa [hdisp]
  have hwrites := (exec_writesOnly h).disp hdisp
  obtain ⟨hnone, rfl⟩ := exec_next_iff.1 h
  cases i with
  | cls => exact List.length_replicate
  | drw => simpa [effectOf] using hd
  | _ => simp at hwrites

theorem exec_keeps_inv {i : Instr} {s t : State} (hs : Inv s) (hf : s.fault = none) (h : exec i s = .next t) :
    Inv t := by
  obtain ⟨-, -, hfault, hbuild, -⟩ := exec_keeps h
  refine .of_running ?_ ?_ ?_ (hfault.trans hf) <;> rw [hbuild]
  exacts [hs.build_ok, exec_mem_wf h hs.mem_ok, exec_disp_length h hs.disp_ok]

/-- A word's effect is its instruction's, or none. -/
theorem execute_cases {w : Word} {s t : State} (h : execute w s = .next t) :
    t = s ∨ ∃ i, decodeWord w = .ok i ∧ exec i s = .next t := by
  cases hd : decodeWord w with
  | error e => cases (execute_of_unmatched hd s).symm.trans h; exact .inl rfl
  | ok i => exact .inr ⟨i, rfl, (execute_of_decoded hd s).symm.trans h⟩

theorem step_keeps_inv {s t : State} (hs : Inv s) (h : step s = .next t) : Inv t := by
  have hf := running_of_step_next h
  rcases step_completes_or_faults hf with ⟨w, u, -, hu, h'⟩ | ⟨r, hr, h'⟩ <;> cases h'.symm.trans h
  · rcases execute_cases hu with hsame | ⟨i, -, hi⟩
    · exact (hsame ▸ hs.preAdvance hf : Inv u).endStep
    · exact (exec_keeps_inv (hs.preAdvance hf) hf hi).endStep
  · exact hs.withFault hr

/-- Settles O14: the effect keeps the build, canonical memory and the display's size; a fault adds an exact record. -/
theorem stepKeepsTheInvariant : Obligations.StepKeepsTheInvariant :=
  fun _ _ => step_keeps_inv

/-! ### The session's invariant -/

/-- A fresh core is one as reset left it. -/
theorem session_inv_of_reset {b : Build} (n : Nat) (hb : b.wellFormed = true) :
    Session.Inv ⟨State.resetOf b n, true⟩ :=
  ⟨inv_resetOf n hb, fun _ => rfl⟩

theorem session_inv_of_closed {s : State} (h : Inv s) : Session.Inv ⟨s, false⟩ :=
  ⟨h, nofun⟩

theorem afterStepRequest_keeps_inv {s : State} (h : Inv s) : Inv s.afterStepRequest := by
  rcases s.afterStepRequest_cases with hstep | ⟨-, hsame⟩
  · exact step_keeps_inv h hstep
  · rwa [hsame]

theorem drive_keeps_inv (d e : Session) (op : DriverOp) (hd : d.Inv) (h : d.drive op = some e) : e.Inv := by
  rcases Session.drive_cases h with ⟨-, rfl⟩ | ⟨-, rfl⟩ | ⟨image, -, -, ⟨hlen, rfl⟩ | ⟨-, rfl⟩⟩ | ⟨-, kb, rfl⟩ |
    ⟨-, rfl⟩
  · exact session_inv_of_closed (afterStepRequest_keeps_inv hd.core_ok)
  · exact session_inv_of_reset _ hd.core_ok.build_ok
  · refine session_inv_of_closed ?_
    rw [State.writeImage_eq]
    exact hd.core_ok.withMem (State.writeImage_wf image _ _ (by simp only [memSize]; omega) hd.core_ok.mem_ok)
  · exact hd
  · exact ⟨hd.core_ok.withKb kb, fun hopen => congrArg (fun s : State => { s with kb := kb }) (hd.open_fresh hopen)⟩
  · exact hd

/-- Settles O15: each operation keeps it, so every sequence does. -/
theorem driverKeepsTheInvariant : Obligations.DriverKeepsTheInvariant :=
  fun ops _ _ hd h => Session.driveAll_keeps drive_keeps_inv ops hd h

/-- Settles O13: memory lists nothing, the display is made to its size, and no record is set. -/
theorem resetMeetsTheInvariant : Obligations.ResetMeetsTheInvariant := by
  refine ⟨fun b n hb => ⟨session_inv_of_reset n hb, inv_resetOf n hb, .inl (Nat.zero_le 15)⟩, inv_resetOf 0 rfl⟩

/-! ### The stack pointer -/

/-- What a step can do to SP: keep it; pop a slot inside the stack, with the word of `RET`; or push into one. -/
theorem step_sp {s t : State} (h : step s = .next t) :
    t.sp = s.sp ∨ (fetch s = .ok 0x00EE ∧ s.sp.toNat < 16 ∧ t.sp = s.sp - 1) ∨
      ((s.sp + 1).toNat < 16 ∧ t.sp = s.sp + 1) := by
  rcases step_completes_or_faults (running_of_step_next h) with ⟨w, u, hw, hu, h'⟩ | ⟨r, -, h'⟩ <;>
    cases h'.symm.trans h
  · rcases execute_cases hu with hsame | ⟨i, hi, hexec⟩
    · have hsp : u.sp = s.sp := by rw [hsame, State.preAdvance_sp]
      exact .inl hsp
    by_cases hsp : u.sp = s.sp
    · exact .inl hsp
    have hwrites := (exec_writesOnly hexec).sp hsp
    obtain ⟨hnone, rfl⟩ := exec_next_iff.1 hexec
    cases i with
    | ret =>
      have hword : w = 0x00EE := (encode_of_decodeWord hi).symm
      exact .inr (.inl ⟨hword ▸ hw, stackFault?_none.1 hnone, rfl⟩)
    | call => exact .inr (.inr ⟨stackFault?_none.1 hnone, rfl⟩)
    | _ => simp at hwrites
  · exact .inl rfl

theorem step_keeps_spInReach {s t : State} (hs : s.spInReach) (h : step s = .next t) : t.spInReach := by
  unfold State.spInReach at *
  rcases step_sp h with hsp | ⟨-, hlt, hsp⟩ | ⟨hlt, hsp⟩ <;> rw [hsp]
  · exact hs
  · bv_omega
  · omega

theorem drive_keeps_spInReach (d e : Session) (op : DriverOp) (hd : d.core.spInReach) (h : d.drive op = some e) :
    e.core.spInReach := by
  rcases Session.drive_cases h with ⟨-, rfl⟩ | ⟨-, rfl⟩ | ⟨image, -, -, ⟨-, rfl⟩ | ⟨-, rfl⟩⟩ | ⟨-, kb, rfl⟩ | ⟨-, rfl⟩
  · rcases d.core.afterStepRequest_cases with hstep | ⟨-, hsame⟩
    · exact step_keeps_spInReach hd hstep
    · rwa [hsame]
  · exact .inl (Nat.zero_le 15)
  · rw [State.writeImage_eq]
    exact hd
  · exact hd
  · exact hd
  · exact hd

/-- Settles O16: a pop takes SP from 0..15 to 0..14 or 255, and a push leaves it below 16. -/
theorem stackPointerStaysInReach : Obligations.StackPointerStaysInReach := by
  refine ⟨fun ops d e hd h => Session.driveAll_keeps drive_keeps_spInReach ops hd h, fun s t h hs ht => ?_⟩
  rcases step_sp h with hsp | ⟨hf, hlt, hsp⟩ | ⟨hlt, hsp⟩
  · exact absurd (hsp.symm.trans ht) hs
  · exact ⟨by bv_omega, hf⟩
  · rw [← hsp, ht] at hlt
    exact absurd hlt (by decide)

end Sys2Proof.Machine
end

section
/-! ## Nothing reads ticks or the sound timer (10_state.md)

Checks, effects and the phases of a step on two states that differ in ST and ticks alone. The obligation O19. -/

namespace Sys2Proof.Machine

/-- The state with another ST and other ticks. -/
def State.withStTicks (s : State) (b : Byte) (n : BitVec 64) : State := { s with st := b, ticks := n }

@[simp] theorem State.withStTicks_skipIf (s : State) (b : Byte) (n : BitVec 64) (c : Bool) :
    (s.withStTicks b n).skipIf c = (s.skipIf c).withStTicks b n := by
  cases c <;> rfl

@[simp] theorem State.withStTicks_setHit (s : State) (b : Byte) (n : BitVec 64) (hit : Bool) :
    (s.withStTicks b n).setHit hit = (s.setHit hit).withStTicks b n := by
  cases hit <;> rfl

@[simp] theorem State.withStTicks_storeFrom (s : State) (b : Byte) (n : BitVec 64) (count : Nat) :
    (s.withStTicks b n).storeFrom count = (s.storeFrom count).withStTicks b n := by
  induction count with
  | zero => rfl
  | succ k ih => rw [State.storeFrom, ih]; rfl

@[simp] theorem State.withStTicks_loadFrom (s : State) (b : Byte) (n : BitVec 64) (count : Nat) :
    (s.withStTicks b n).loadFrom count = (s.loadFrom count).withStTicks b n := by
  induction count with
  | zero => rfl
  | succ k ih => rw [State.loadFrom, ih]; rfl

@[simp] theorem State.withStTicks_drawRows (s : State) (b : Byte) (n : BitVec 64) (px py rows : Nat) :
    (s.withStTicks b n).drawRows px py rows = s.drawRows px py rows := by
  induction rows with
  | zero => rfl
  | succ k ih => rw [State.drawRows, ih]; rfl

@[simp] theorem drawFault?_withStTicks (s : State) (b : Byte) (n : BitVec 64) (px py i rows : Nat) :
    drawFault? (s.withStTicks b n) px py i rows = drawFault? s px py i rows := by
  induction rows generalizing i with
  | zero => rfl
  | succ k ih => rw [drawFault?, ih]; rfl

theorem faultOf_withStTicks (i : Instr) (s : State) (b : Byte) (n : BitVec 64) :
    faultOf i (s.withStTicks b n) = faultOf i s := by
  cases i with
  | drw x y rows => exact drawFault?_withStTicks s b n _ _ _ _
  | _ => rfl

/-- `LD ST, Vx` sets ST to the same byte in both; every other effect carries the difference along. -/
theorem effectOf_withStTicks (i : Instr) (s : State) (b : Byte) (n : BitVec 64) :
    ∃ b', effectOf i (s.withStTicks b n) = (effectOf i s).withStTicks b' n := by
  cases i with
  | ldStVx x => exact ⟨s.reg x, rfl⟩
  | seImm | sneImm | seReg | sneReg | skp | sknp => exact ⟨b, s.withStTicks_skipIf b n _⟩
  | storeRegs x => exact ⟨b, congrArg (State.setIndex · _) (s.withStTicks_storeFrom b n _)⟩
  | loadRegs x => exact ⟨b, s.withStTicks_loadFrom b n _⟩
  | drw x y rows =>
    refine ⟨b, ?_⟩
    simp only [effectOf, State.withStTicks_drawRows]
    exact State.withStTicks_setHit (s.setDisp _) b n _
  | _ => exact ⟨b, rfl⟩

/-- Both answers are next states that differ in ST and ticks alone, or both are the same fault. -/
def DifferInStTicks (r r' : Result) : Prop :=
  (∃ t b n, r = .next t ∧ r' = .next (t.withStTicks b n)) ∨ ∃ c, r = .fault (.raised c) ∧ r' = .fault (.raised c)

theorem exec_withStTicks (i : Instr) (s : State) (b : Byte) (n : BitVec 64) :
    DifferInStTicks (exec i s) (exec i (s.withStTicks b n)) := by
  have hfault := faultOf_withStTicks i s b n
  cases hc : faultOf i s with
  | none =>
    obtain ⟨b', heffect⟩ := effectOf_withStTicks i s b n
    exact .inl ⟨_, b', n, exec_of_no_fault hc, (exec_of_no_fault (hfault.trans hc)).trans (congrArg _ heffect)⟩
  | some c => exact .inr ⟨c, exec_of_fault hc, exec_of_fault (hfault.trans hc)⟩

theorem execute_withStTicks (w : Word) (s : State) (b : Byte) (n : BitVec 64) :
    DifferInStTicks (execute w s) (execute w (s.withStTicks b n)) := by
  cases hd : decodeWord w with
  | error e => exact .inl ⟨s, b, n, execute_of_unmatched hd _, execute_of_unmatched hd _⟩
  | ok i =>
    rw [execute_of_decoded hd, execute_of_decoded hd]
    exact exec_withStTicks i s b n

/-- The end of a step counts both timers down and both ticks up, and a fault record holds neither. -/
theorem settle_withStTicks {r r' : Result} (h : DifferInStTicks r r') (s t : State) (w : Word) (b : Byte)
    (n : BitVec 64) (ht : settle s w r = .next t) :
    ∃ b' n', settle (s.withStTicks b n) w r' = .next (t.withStTicks b' n') := by
  rcases h with ⟨u, b', n', rfl, rfl⟩ | ⟨c, rfl, rfl⟩ <;> cases ht
  · exact ⟨countDown b', n' + 1, rfl⟩
  · exact ⟨b, n, rfl⟩

theorem step_withStTicks {s t : State} (b : Byte) (n : BitVec 64) (h : step s = .next t) :
    ∃ b' n', step (s.withStTicks b n) = .next (t.withStTicks b' n') := by
  have hs := running_of_step_next h
  have hs' : (s.withStTicks b n).fault = none := hs
  cases hf : fetch s with
  | error c =>
    cases (step_of_fetch_failed hs hf).symm.trans h
    exact ⟨b, n, step_of_fetch_failed hs' hf⟩
  | ok w =>
    rw [step_of_fetched hs' hf]
    exact settle_withStTicks (execute_withStTicks w s.preAdvance b n) s t w b n ((step_of_fetched hs hf).symm.trans h)

/-- Settles O19: the fetch reads neither, the effect carries the difference along, and so does the end of the step. -/
theorem ticksAndSoundTimerAreUnread : Obligations.TicksAndSoundTimerAreUnread := by
  intro s t b n h
  obtain ⟨b', n', hstep⟩ := step_withStTicks b n h
  exact ⟨t.withStTicks b' n', hstep, rfl⟩

end Sys2Proof.Machine
end

section
/-! ## Waiting for a key (45_keys_timers.md)

`LD Vx, K` undoes the pre-advance, so its step is the end of a step alone. The obligations O51 and O52. -/

namespace Sys2Proof.Machine

/-- Settles O51: the instruction is one write of PC; its other branch is never taken. -/
theorem keyWaitRewinds : Obligations.KeyWaitRewinds :=
  fun s x => ⟨s.setPc (s.pc - 2), execLdVxKey_eq x s, rfl, s.onlyPc_setPc _⟩

/-- The core runs and fetches `LD Vx, K`. -/
structure State.AtKeyWait (s : State) : Prop where
  running : s.fault = none
  fetches : ∃ w x, fetch s = .ok w ∧ decodeWord w = .ok (.ldVxKey x)

theorem State.AtKeyWait.step_eq {s : State} (h : s.AtKeyWait) : step s = .next s.endStep := by
  obtain ⟨hs, w, x, hf, hd⟩ := h
  have hpc : s.pc + 2 - 2 = s.pc := BitVec.add_sub_cancel _ _
  rw [step_of_fetched hs hf, execute_of_decoded hd]
  change settle s w (execLdVxKey x s.preAdvance) = _
  rw [execLdVxKey_eq, State.preAdvance_pc, hpc]
  rfl

theorem State.AtKeyWait.endStep {s : State} (h : s.AtKeyWait) : s.endStep.AtKeyWait :=
  ⟨h.running, h.fetches⟩

theorem State.AtKeyWait.withKb {s : State} (h : s.AtKeyWait) (kb : Word) : { s with kb := kb }.AtKeyWait :=
  ⟨h.running, h.fetches⟩

theorem State.AtKeyWait.afterStepRequest_eq {s : State} (h : s.AtKeyWait) : s.afterStepRequest = s.endStep := by
  rw [State.afterStepRequest, h.step_eq]

/-- What a wait keeps over `n` steps: PC, the record, the registers and memory; each step counts a tick. -/
structure WaitedFor (n : Nat) (s t : State) : Prop where
  pc : t.pc = s.pc
  fault : t.fault = s.fault
  v : t.v = s.v
  mem : t.mem = s.mem
  ticks : t.ticks = s.ticks + BitVec.ofNat 64 n

theorem WaitedFor.refl (s : State) : WaitedFor 0 s s :=
  ⟨rfl, rfl, rfl, rfl, by simp⟩

theorem WaitedFor.of_kb {n : Nat} {s t : State} {kb : Word} (h : WaitedFor n { s with kb := kb } t) : WaitedFor n s t :=
  ⟨h.pc, h.fault, h.v, h.mem, h.ticks⟩

theorem WaitedFor.of_endStep {n : Nat} {s t : State} (h : WaitedFor n s.endStep t) : WaitedFor (n + 1) s t := by
  refine ⟨h.pc, h.fault, h.v, h.mem, ?_⟩
  rw [h.ticks, State.endStep_ticks, BitVec.add_assoc, Nat.add_comm n 1, BitVec.ofNat_add]
  rfl

theorem Session.drive_keyPress (d : Session) (k : Nat) :
    d.drive (.keyPress k) = some { d with core := { d.core with kb := (d.core.keyPress k).kb } } := by
  rw [← State.keyPress_eq]
  rfl

theorem Session.drive_keyRelease (d : Session) (k : Nat) :
    d.drive (.keyRelease k) = some { d with core := { d.core with kb := (d.core.keyRelease k).kb } } := by
  rw [← State.keyRelease_eq]
  rfl

/-- A sequence without a reset and a load, driven from a wait, leaves the wait going. -/
theorem driveAll_of_atKeyWait (ops : List DriverOp) (d : Session) (hd : d.core.AtKeyWait) (hreset : .reset ∉ ops)
    (hload : ∀ image, .load image ∉ ops) :
    ∃ e, d.driveAll ops = some e ∧ WaitedFor (ops.count .step) d.core e.core := by
  induction ops generalizing d with
  | nil => exact ⟨d, rfl, .refl _⟩
  | cons op rest ih =>
    have hrest (m : Session) (hm : m.core.AtKeyWait) :
        ∃ e, m.driveAll rest = some e ∧ WaitedFor (rest.count .step) m.core e.core :=
      ih m hm (fun h => hreset (.tail _ h)) fun image h => hload image (.tail _ h)
    have hkey (kb : Word) : ∃ e, Session.driveAll { d with core := { d.core with kb := kb } } rest = some e ∧
        WaitedFor (rest.count .step) d.core e.core := by
      obtain ⟨e, he, hw⟩ := hrest { d with core := { d.core with kb := kb } } (hd.withKb kb)
      exact ⟨e, he, hw.of_kb⟩
    cases op with
    | reset => exact absurd (.head _) hreset
    | load image => exact absurd (.head _) (hload image)
    | step =>
      obtain ⟨e, he, hw⟩ := hrest ⟨d.core.afterStepRequest, false⟩ (hd.afterStepRequest_eq ▸ hd.endStep)
      rw [hd.afterStepRequest_eq] at hw
      exact ⟨e, he, by rw [List.count_cons_self]; exact hw.of_endStep⟩
    | keyPress k =>
      rw [Session.driveAll, Session.drive_keyPress]
      exact hkey _
    | keyRelease k =>
      rw [Session.driveAll, Session.drive_keyRelease]
      exact hkey _
    | readDisplay | readDiag | readFault => exact hrest d hd

/-- Settles O52: from a wait every such operation leads to a wait, and only a step counts a tick. -/
theorem keyWaitNeverEnds : Obligations.KeyWaitNeverEnds := by
  intro d w x ops hs hf hd hreset hload
  obtain ⟨e, he, hw⟩ := driveAll_of_atKeyWait ops d ⟨hs, w, x, hf, hd⟩ hreset hload
  exact ⟨e, he, hw.pc, hw.fault.trans hs, hw.v, hw.mem, hw.ticks⟩

end Sys2Proof.Machine
end

section
/-! ## Calls, returns and timer writes (41_control_flow.md, 45_keys_timers.md)

The obligations O26 to O29 and O50. -/

namespace Sys2Proof.Machine

theorem sp_succ_toNat (s : State) : (s.sp + 1).toNat = (s.sp.toNat + 1) % 256 :=
  BitVec.toNat_add s.sp 1

theorem exec_call {s : State} (nnn : Addr12) (h : (s.sp.toNat + 1) % 256 < 16) :
    exec (.call nnn) s = .next (effectOf (.call nnn) s) :=
  exec_of_no_fault (stackFault?_none.2 ((sp_succ_toNat s).symm ▸ h))

theorem exec_ret {s : State} (h : s.sp.toNat < 16) : exec .ret s = .next (effectOf .ret s) :=
  exec_of_no_fault (stackFault?_none.2 h)

theorem slot_effectOf_call (s : State) (nnn : Addr12) (j : Nat) (h : (s.sp.toNat + 1) % 256 < 16) :
    (effectOf (.call nnn) s).slot j = if j = (s.sp + 1).toNat then s.pc else s.slot j := by
  rw [effectOf, State.setPc_slot, State.slot_setSlot _ _ _ ((sp_succ_toNat s).symm ▸ h), State.setSp_slot]

/-- Settles O26: the new SP is a slot of the array, which takes the advanced PC. -/
theorem callPushesTheReturnAddress : Obligations.CallPushesTheReturnAddress := by
  intro s nnn h
  refine ⟨_, exec_call nnn h, sp_succ_toNat s, ?pushed, fun j hj => ?kept, zext16_toNat nnn, fun _ _ => rfl,
    fun _ => rfl, rfl⟩
  case pushed => exact (slot_effectOf_call s nnn _ h).trans (if_pos rfl)
  case kept => exact (slot_effectOf_call s nnn j h).trans (if_neg hj)

/-- Settles O27: SP - 1 modulo 256 is SP + 255. -/
theorem returnPopsTheAddress : Obligations.ReturnPopsTheAddress := by
  intro s h
  have hsp : (s.sp - 1).toNat = (s.sp.toNat + 255) % 256 := by bv_omega
  exact ⟨_, exec_ret h, rfl, hsp, rfl, fun _ _ => rfl, fun _ => rfl, rfl⟩

/-- Settles O28: the check of either finds the slot it needs outside the array. -/
theorem stackAccessOutsideFaults : Obligations.StackAccessOutsideFaults := by
  refine ⟨fun s nnn h => ?_, fun s h => ?_⟩
  · rw [← sp_succ_toNat] at h ⊢
    exact exec_of_fault (stackFault?_some.2 ⟨h, rfl⟩)
  · exact exec_of_fault (stackFault?_some.2 ⟨h, rfl⟩)

/-- Settles O29: the return finds the address where the call pushed it, and takes back the call's SP + 1. -/
theorem returnUndoesCall : Obligations.ReturnUndoesCall := by
  intro s nnn h
  refine ⟨_, exec_call nnn h, fun t hsp hstack => ?_⟩
  have hsp' : t.sp = s.sp + 1 := hsp
  have hslot : t.slot (s.sp + 1).toNat = s.pc := by
    have hsame : t.slot (s.sp + 1).toNat = (effectOf (.call nnn) s).slot (s.sp + 1).toNat := by
      rw [State.slot, hstack, State.slot]
    rw [hsame, slot_effectOf_call s nnn _ h, if_pos rfl]
  have hlt : t.sp.toNat < 16 := by rwa [hsp', sp_succ_toNat]
  refine ⟨_, exec_ret hlt, ?pc, ?sp⟩
  case pc => exact (congrArg (fun b : Byte => t.slot b.toNat) hsp').trans hslot
  case sp => exact (congrArg (· - 1) hsp').trans (BitVec.add_sub_cancel _ _)

/-- Settles O50: each is one write of its timer. -/
theorem timersAreSet : Obligations.TimersAreSet := fun s x =>
  ⟨⟨s.setDt (s.reg x), rfl, rfl, fun _ _ => rfl, fun _ => rfl, rfl⟩,
    ⟨s.setSt (s.reg x), rfl, rfl, fun _ _ => rfl, fun _ => rfl, rfl⟩⟩

end Sys2Proof.Machine
end

section
/-! ## Differences, shifts and the random byte (42_alu.md)

The signed flag of the subtractions as a range of the difference modulo 256; then the shifts, which write VF before they
read Vy again. The obligations O34 to O37. -/

namespace Sys2Proof.Machine

/-! ### Differences and their flag -/

theorem signedDiff_eq (a b : Byte) : signedDiff a b = (a - b).toInt := by
  have hsub : trunc8 ((a.toNat : Int) - b.toNat) = a - b := by
    apply BitVec.eq_of_toNat_eq
    rw [trunc8_toNat, BitVec.toNat_sub]
    omega
  rw [signedDiff, int8, hsub]

theorem trunc8_signedDiff (a b : Byte) : trunc8 (signedDiff a b) = a - b := by
  rw [signedDiff_eq, trunc8, BitVec.ofInt_toInt]

theorem byte_sub_toNat (a b : Byte) : (a - b).toNat = (256 + a.toNat - b.toNat) % 256 := by
  rw [BitVec.toNat_sub]
  omega

/-- The signed reading is positive exactly for the bytes 1 to 127. -/
theorem positiveFlag_eq (a b : Byte) :
    positiveFlag a b = if 1 ≤ (256 + a.toNat - b.toNat) % 256 ∧ (256 + a.toNat - b.toNat) % 256 ≤ 127 then 1 else 0 := by
  have hpos : signedDiff a b > 0 ↔ 1 ≤ (a - b).toNat ∧ (a - b).toNat ≤ 127 := by
    rw [signedDiff_eq, BitVec.toInt_eq_toNat_cond]
    split <;> omega
  simp only [positiveFlag, flag, hpos, byte_sub_toNat, decide_eq_true_eq]

theorem positiveFlag_self (a : Byte) : positiveFlag a a = 0 := by
  rw [positiveFlag_eq, if_neg (by omega)]

/-- The flag of a byte less its half: only 0 and 255 leave a difference outside 1..127. -/
theorem positiveFlag_half (a : Byte) : positiveFlag a (a >>> 1) = if 1 ≤ a.toNat ∧ a.toNat ≤ 254 then 1 else 0 := by
  rw [positiveFlag_eq, BitVec.toNat_ushiftRight, Nat.shiftRight_eq_div_pow]
  exact if_congr (by omega) rfl rfl

/-! ### What a subtraction leaves -/

theorem State.onlyRegs_subtractInto (s : State) (x : Reg) (a b : Byte) : OnlyRegs [x, regF] s (s.subtractInto x a b) :=
  s.onlyRegs_setReg_flag x _ _

theorem State.reg_subtractInto_flag (s : State) (x : Reg) (a b : Byte) :
    (s.subtractInto x a b).reg regF = positiveFlag a b :=
  State.reg_setReg_same _ _ _

theorem State.reg_subtractInto (s : State) {x : Reg} (a b : Byte) (hx : x ≠ regF) :
    (s.subtractInto x a b).reg x = a - b := by
  rw [State.subtractInto, s.reg_setReg_flag _ _ hx, trunc8_signedDiff]

/-- Settles O34: both are one subtraction into Vx, with the operands either way round. -/
theorem subtractionFlagIsSignedPositive : Obligations.SubtractionFlagIsSignedPositive := by
  intro s x y
  refine ⟨⟨s.subtractInto x (s.reg x) (s.reg y), rfl, fun hx => ?sub, ?subFlag, s.onlyRegs_subtractInto x _ _⟩,
    ⟨s.subtractInto x (s.reg y) (s.reg x), rfl, fun hx => ?subn, ?subnFlag, s.onlyRegs_subtractInto x _ _⟩⟩
  case sub | subn => rw [s.reg_subtractInto _ _ hx, byte_sub_toNat]
  case subFlag | subnFlag => rw [State.reg_subtractInto_flag, positiveFlag_eq]

/-! ### Shifts -/

theorem lowBitFlag_toNat (b : Byte) : (lowBitFlag b).toNat = b.toNat % 2 := by
  rw [lowBitFlag, BitVec.toNat_and]
  exact Nat.and_one_is_mod b.toNat

theorem highBitFlag_toNat (b : Byte) : (highBitFlag b).toNat = b.toNat / 128 := by
  have h : (highBitFlag b).toNat = (b.toNat >>> 7) % 2 := by
    rw [highBitFlag, BitVec.toNat_and, BitVec.toNat_ushiftRight]
    exact Nat.and_one_is_mod _
  rw [h, Nat.shiftRight_eq_div_pow]
  omega

theorem byte_half_toNat (b : Byte) : (b >>> 1).toNat = b.toNat / 2 := by
  rw [BitVec.toNat_ushiftRight, Nat.shiftRight_eq_div_pow]

theorem byte_twice_toNat (b : Byte) : (b <<< 1).toNat = 2 * b.toNat % 256 := by
  rw [BitVec.toNat_shiftLeft, Nat.shiftLeft_eq, Nat.mul_comm]

/-- A byte less its half is its half rounded up. -/
theorem byte_sub_half_toNat (b : Byte) : (b - b >>> 1).toNat = b.toNat - b.toNat / 2 := by
  rw [byte_sub_toNat, byte_half_toNat]
  omega

/-- Vy as the second statement of `SHR` and `SHL` reads it: VF has taken the flag in between. -/
theorem State.reg_setReg_regF (s : State) (y : Reg) (f : Byte) :
    (s.setReg regF f).reg y = if y = regF then f else s.reg y :=
  s.reg_setReg regF y f

theorem State.reg_shrHalf_same (s : State) (x y : Reg) :
    (s.shrHalf x y).reg x = (if y = regF then lowBitFlag (s.reg y) else s.reg y) >>> 1 := by
  rw [State.shrHalf, State.reg_setReg_same, State.reg_setReg_regF]

theorem State.reg_shrHalf_ne (s : State) {x y : Reg} (h : y ≠ x) :
    (s.shrHalf x y).reg y = if y = regF then lowBitFlag (s.reg y) else s.reg y := by
  rw [State.shrHalf, State.reg_setReg_ne _ _ h, State.reg_setReg_regF]

theorem State.onlyRegs_shr (s : State) (x y : Reg) : OnlyRegs [x, regF] s ((s.shrHalf x y).subnEffect x y) :=
  ((((OnlyRegs.refl [x, regF] s).setReg (by simp) _).setReg (by simp) _).setReg (by simp) _).setReg (by simp) _

/-- What `SHR` leaves where Vx is not Vy: Vy, as read after the flag, against its half. -/
theorem State.reg_shr_of_ne (s : State) {x y : Reg} (h : y ≠ x) :
    let b := if y = regF then lowBitFlag (s.reg y) else s.reg y
    (x ≠ regF → (((s.shrHalf x y).subnEffect x y).reg x).toNat = b.toNat - b.toNat / 2) ∧
      ((s.shrHalf x y).subnEffect x y).reg regF = if 1 ≤ b.toNat ∧ b.toNat ≤ 254 then 1 else 0 := by
  intro b
  have hy : (s.shrHalf x y).reg y = b := s.reg_shrHalf_ne h
  have hx : (s.shrHalf x y).reg x = b >>> 1 := s.reg_shrHalf_same x y
  refine ⟨fun hxF => ?_, ?_⟩
  · rw [State.subnEffect, State.reg_subtractInto _ _ _ hxF, hx, hy, byte_sub_half_toNat]
  · rw [State.subnEffect, State.reg_subtractInto_flag, hx, hy, positiveFlag_half]

/-- Settles O35: where Vx is Vy the subtraction is of a byte from itself; else it is of a byte and its half, the byte being
Vy, or the bit shifted out where Vy is VF. -/
theorem shiftRightFallsThroughIntoSubn : Obligations.ShiftRightFallsThroughIntoSubn := by
  intro s x y a inner
  refine ⟨(s.shrHalf x y).subnEffect x y, rfl, s.onlyRegs_shr x y, fun hxy hx hy => ?distinct, ?same,
    fun hx hy => ?destF, fun hy hx => ?srcF, ?bothF⟩
  case distinct =>
    obtain ⟨hreg, hflag⟩ := s.reg_shr_of_ne (Ne.symm hxy)
    simp only [if_neg hy] at hreg hflag
    exact ⟨hreg hx, hflag⟩
  case same =>
    rintro rfl hx
    rw [State.subnEffect, State.reg_subtractInto _ _ _ hx, State.reg_subtractInto_flag, positiveFlag_self]
    exact ⟨BitVec.sub_self _, rfl⟩
  case destF =>
    obtain ⟨-, hflag⟩ := s.reg_shr_of_ne (hx ▸ hy : y ≠ x)
    simpa only [if_neg hy] using hflag
  case srcF =>
    obtain ⟨hreg, hflag⟩ := s.reg_shr_of_ne (hy ▸ Ne.symm hx : y ≠ x)
    simp only [if_pos hy, lowBitFlag_toNat] at hreg hflag
    refine ⟨(hreg hx).trans (by omega), ?_⟩
    rw [hflag]
    split <;> simp <;> omega
  case bothF =>
    rintro rfl rfl
    rw [State.subnEffect, State.reg_subtractInto_flag, positiveFlag_self]

/-- Settles O36: the flag stays in VF unless Vx is VF, and Vy read again is the flag where Vy is VF. -/
theorem shiftLeftWritesTheFlagFirst : Obligations.ShiftLeftWritesTheFlagFirst := by
  intro s x y a
  refine ⟨effectOf (.shl x y) s, rfl, ?only, fun hx => ?flag, fun hy => ?reg, fun hy => ?srcF⟩
  case only => exact ((OnlyRegs.refl [x, regF] s).setReg (by simp) _).setReg (by simp) _
  case flag => rw [effectOf, State.reg_setReg_ne _ _ (Ne.symm hx), State.reg_setReg_same, highBitFlag_toNat]
  case reg => rw [effectOf, State.reg_setReg_same, State.reg_setReg_regF, if_neg hy, byte_twice_toNat]
  case srcF =>
    rw [effectOf, State.reg_setReg_same, State.reg_setReg_regF, if_pos hy, byte_twice_toNat, highBitFlag_toNat]
    omega

/-! ### The random byte -/

/-- Settles O37: one write of Vx with the masked draw, whatever the draw. -/
theorem randomByteIsMasked : Obligations.RandomByteIsMasked := by
  intro s x kk
  refine ⟨s.setReg x (Config.rnd s.draws &&& kk), rfl, s.reg_setReg_same x _, fun k hk => ?_, s.onlyRegs_setReg x _⟩
  rw [State.reg_setReg_same, BitVec.getLsbD_and, hk, Bool.and_false]

end Sys2Proof.Machine
end

section
/-! ## Memory transfers (43_index_memory.md)

The obligations O39 to O42. -/

namespace Sys2Proof.Machine

theorem exec_ldBcd {s : State} (x : Reg) (h : s.index.toNat + 2 < 4096) :
    exec (.ldBcd x) s = .next (effectOf (.ldBcd x) s) :=
  exec_of_no_fault (memFault?_none.2 (show s.index.toNat + 3 ≤ 4096 by omega))

theorem memFault?_registers_none {s : State} {x : Reg} (h : s.index.toNat + x.toNat < 4096) :
    memFault? s.index.toNat (x.toNat + 1) = none :=
  memFault?_none.2 (show s.index.toNat + (x.toNat + 1) ≤ 4096 by omega)

theorem memFault?_registers_some {s : State} {x : Reg} (h : 4096 ≤ s.index.toNat + x.toNat) :
    memFault? s.index.toNat (x.toNat + 1) = some (.memOob (max s.index.toNat 4096)) :=
  memFault?_some.2 ⟨show 4096 < s.index.toNat + (x.toNat + 1) by omega, rfl⟩

/-! ### The decimal digits -/

theorem hundreds_toNat (v : Byte) : (hundreds v).toNat = v.toNat / 100 := by
  rw [hundreds, trunc8_toNat]
  omega

theorem tens_toNat (v : Byte) : (tens v).toNat = v.toNat / 10 % 10 := by
  rw [tens, trunc8_toNat]
  omega

theorem units_toNat (v : Byte) : (units v).toNat = v.toNat % 10 := by
  rw [units, trunc8_toNat]
  omega

/-- Every byte after the three stores of `Fx33`. -/
theorem byteAt_effectOf_ldBcd (s : State) (x : Reg) (a : Nat) :
    (effectOf (.ldBcd x) s).byteAt a =
      if a = s.indexed 2 then units (s.reg x) else if a = s.indexed 1 then tens (s.reg x)
      else if a = s.indexed 0 then hundreds (s.reg x) else s.byteAt a := by
  simp only [effectOf, State.byteAt_setByte]

/-- Settles O39: the three addresses differ, so no store covers another's digit. -/
theorem decimalDigitsAreStored : Obligations.DecimalDigitsAreStored := by
  intro s x h
  have h01 : s.indexed 0 ≠ s.indexed 1 := by simp [State.indexed]
  have h02 : s.indexed 0 ≠ s.indexed 2 := by simp [State.indexed]
  have h12 : s.indexed 1 ≠ s.indexed 2 := by simp [State.indexed]
  refine ⟨_, exec_ldBcd x h, ?hundreds, ?tens, ?units, fun a h0 h1 h2 => ?kept, fun _ _ => rfl, rfl⟩
  case hundreds => rw [byteAt_effectOf_ldBcd, if_neg h02, if_neg h01, if_pos rfl, hundreds_toNat]
  case tens => rw [byteAt_effectOf_ldBcd, if_neg h12, if_pos rfl, tens_toNat]
  case units => rw [byteAt_effectOf_ldBcd, if_pos rfl, units_toNat]
  case kept => rw [byteAt_effectOf_ldBcd, if_neg h2, if_neg h1, if_neg h0]

/-! ### Storing and loading the registers -/

/-- Settles O40: `State.byteAt_storeFrom` gives every byte, and only memory and I are written. -/
theorem registersAreStored : Obligations.RegistersAreStored := by
  intro s x h
  refine ⟨_, exec_of_no_fault (memFault?_registers_none h), fun k hk => ?stored, fun a ha => ?kept, ?index,
    fun r _ => ?regs, ?frame⟩
  case stored =>
    rw [effectOf, State.setIndex_byteAt, State.byteAt_storeFrom, if_pos (by simp only [State.indexed]; omega),
      State.indexed, Nat.add_sub_cancel_left, BitVec.ofNat_toNat, BitVec.setWidth_eq]
  case kept =>
    rw [effectOf, State.setIndex_byteAt, State.byteAt_storeFrom, if_neg]
    intro ⟨hlo, hhi⟩
    exact ha (a - s.index.toNat) (by omega) (by simp only [State.indexed]; omega)
  case index =>
    rw [effectOf, State.setIndex_index, trunc16_toNat]
    omega
  case regs => rw [effectOf, State.setIndex_reg, State.storeFrom_eq]; rfl
  case frame => rw [effectOf, State.storeFrom_eq]; rfl

/-- Settles O41: `State.reg_loadFrom` gives every register, and only registers are written. -/
theorem registersAreLoaded : Obligations.RegistersAreLoaded := by
  intro s x h
  have hx : x.toNat + 1 ≤ 16 := x.isLt
  refine ⟨_, exec_of_no_fault (memFault?_registers_none h), fun k hk => ?loaded, fun k hk => ?above, fun a => ?memory,
    s.loadFrom_eq _⟩
  case loaded => rw [effectOf, s.reg_loadFrom _ hx, if_pos (by omega), State.indexed]
  case above => rw [effectOf, s.reg_loadFrom _ hx, if_neg (by omega)]
  case memory => rw [effectOf, State.loadFrom_eq]; rfl

/-- Settles O42: each check runs past the end, and reports the first address from I on that is 4096 or more. -/
theorem transfersOutsideMemoryFault : Obligations.TransfersOutsideMemoryFault := by
  refine fun s x => ⟨fun h => ?bcd, fun h => ⟨?store, ?load⟩⟩
  case bcd => exact exec_of_fault (memFault?_some.2 ⟨show 4096 < s.index.toNat + 3 by omega, rfl⟩)
  case store => exact exec_of_fault (memFault?_registers_some h)
  case load => exact exec_of_fault (memFault?_registers_some h)

end Sys2Proof.Machine
end

section
/-! ## Drawing (44_display.md)

The drawn rows have different cells, all inside the display; so each cell is XORed once, with the byte it held before.
The obligations O44 to O47. -/

namespace Sys2Proof.Machine

/-! ### Cells of the display (R29) -/

/-- R8: the width is a whole number of byte-columns, at least one. -/
theorem Build.columns_pos {b : Build} (hb : b.wellFormed = true) : 0 < b.columns := by
  simp only [Build.wellFormed, Bool.and_eq_true, beq_iff_eq, decide_eq_true_eq] at hb
  simp only [Build.columns]
  omega

theorem Build.displayBytes_eq {b : Build} (hb : b.wellFormed = true) : b.displayBytes = b.displayH * b.columns := by
  simp only [Build.wellFormed, Bool.and_eq_true, beq_iff_eq, decide_eq_true_eq] at hb
  have hw : b.displayW = 8 * b.columns := by simp only [Build.columns]; omega
  rw [Build.displayBytes, hw, Nat.mul_assoc, Nat.mul_div_cancel_left _ (by omega), Nat.mul_comm]

theorem Build.cell_lt {b : Build} (hb : b.wellFormed = true) {row px : Nat} (hpx : px < b.displayW)
    (hrow : row < b.displayH) : Build.cell b row (px / 8) < b.displayBytes := by
  have hcol : px / 8 < b.columns := by
    simp only [Build.wellFormed, Bool.and_eq_true, beq_iff_eq, decide_eq_true_eq] at hb
    simp only [Build.columns]
    omega
  rw [Build.displayBytes_eq hb, Build.cell]
  calc row * b.columns + px / 8 < row * b.columns + b.columns := by omega
    _ = (row + 1) * b.columns := by rw [Nat.add_mul, Nat.one_mul]
    _ ≤ b.displayH * b.columns := Nat.mul_le_mul_right _ hrow

theorem Build.cell_inj {b : Build} (hb : b.wellFormed = true) {row row' column : Nat}
    (h : Build.cell b row column = Build.cell b row' column) : row = row' :=
  Nat.eq_of_mul_eq_mul_right (Build.columns_pos hb) (Nat.add_right_cancel h)

/-- The cell of row `i` of a drawing at `px`, `py` (R101). -/
def State.rowCell (s : State) (px py i : Nat) : Nat := Build.cell s.build (py + i) (px / 8)

theorem State.rowCell_ne (s : State) (hb : s.build.wellFormed = true) (px py : Nat) {i j : Nat} (h : i ≠ j) :
    s.rowCell px py i ≠ s.rowCell px py j :=
  fun hcell => h (Nat.add_left_cancel (Build.cell_inj hb hcell))

/-! ### The drawn rows, one by one -/

theorem State.drawRows_succ (s : State) (px py i : Nat) :
    s.drawRows px py (i + 1) = (s.drawRows px py i).xorByte (s.rowCell px py i) (s.byteAt (s.indexed i)) := rfl

/-- Every one of the first `rows` rows drawn at `px`, `py` lies inside memory and inside the display. -/
def State.RowsInside (s : State) (px py rows : Nat) : Prop :=
  ∀ i, i < rows → s.indexed i < 4096 ∧ px < s.build.displayW ∧ py + i < s.build.displayH

theorem drawFault?_none_of_rowsInside {s : State} {px py rows : Nat} (h : s.RowsInside px py rows) :
    drawFault? s px py 0 rows = none :=
  drawFault?_none.2 fun k _ hk => h k (by omega)

theorem State.RowsInside.mono {s : State} {px py rows rows' : Nat} (h : s.RowsInside px py rows) (hle : rows' ≤ rows) :
    s.RowsInside px py rows' :=
  fun i hi => h i (by omega)

section
variable {s : State} {px py : Nat} (hb : s.build.wellFormed = true) (hd : s.disp.length = s.build.displayBytes)
include hb hd

theorem State.RowsInside.cell_lt {rows i : Nat} (h : s.RowsInside px py rows) (hi : i < rows) :
    s.rowCell px py i < s.disp.length := by
  obtain ⟨-, hpx, hpy⟩ := h i hi
  rw [hd]
  exact Build.cell_lt hb hpx hpy

/-- Every display byte after one more row. -/
theorem State.getD_drawRows_succ {rows : Nat} (h : s.RowsInside px py (rows + 1)) (c : Nat) :
    (s.drawRows px py (rows + 1)).disp.getD c 0 =
      if c = s.rowCell px py rows then
        (s.drawRows px py rows).disp.getD c 0 ^^^ s.byteAt (s.indexed rows)
      else (s.drawRows px py rows).disp.getD c 0 := by
  have hlt := h.cell_lt hb hd (Nat.lt_succ_self rows)
  rw [← State.drawRows_length s px py rows] at hlt
  rw [State.drawRows_succ, Canvas.xorByte, getD_set_byte _ _ _ _ hlt]
  split
  · next hc => rw [hc]
  · rfl

theorem State.getD_drawRows_of_ne {rows : Nat} (h : s.RowsInside px py rows) {c : Nat}
    (hc : ∀ i, i < rows → c ≠ s.rowCell px py i) : (s.drawRows px py rows).disp.getD c 0 = s.dispByte c := by
  induction rows with
  | zero => rfl
  | succ n ih =>
    rw [State.getD_drawRows_succ hb hd h, if_neg (hc n (by omega)), ih (h.mono (by omega)) fun i hi => hc i (by omega)]

/-- A row's cell still holds its old byte while the rows before it are drawn. -/
theorem State.getD_drawRows_next {rows : Nat} (h : s.RowsInside px py rows) :
    (s.drawRows px py rows).disp.getD (s.rowCell px py rows) 0 =
      s.dispByte (s.rowCell px py rows) :=
  State.getD_drawRows_of_ne hb hd h fun _ hi => s.rowCell_ne hb px py (by omega)

theorem State.getD_drawRows_cell {rows i : Nat} (h : s.RowsInside px py rows) (hi : i < rows) :
    (s.drawRows px py rows).disp.getD (s.rowCell px py i) 0 =
      s.dispByte (s.rowCell px py i) ^^^ s.byteAt (s.indexed i) := by
  induction rows with
  | zero => exact absurd hi (Nat.not_lt_zero i)
  | succ n ih =>
    have hbefore := h.mono (Nat.le_succ n)
    rw [State.getD_drawRows_succ hb hd h]
    by_cases hn : i = n
    · rw [hn, if_pos rfl, State.getD_drawRows_next hb hd hbefore]
    · rw [if_neg (s.rowCell_ne hb px py hn), ih hbefore (by omega)]

/-- A collision is a row whose set bits meet set bits of its old byte. -/
theorem State.drawRows_hit_iff {rows : Nat} (h : s.RowsInside px py rows) :
    (s.drawRows px py rows).hit = true ↔
      ∃ i, i < rows ∧ s.dispByte (s.rowCell px py i) &&& s.byteAt (s.indexed i) ≠ 0 := by
  induction rows with
  | zero => simp [State.drawRows]
  | succ n ih =>
    have hbefore := h.mono (Nat.le_succ n)
    simp only [State.drawRows_succ, Canvas.xorByte, Bool.or_eq_true, ih hbefore, bne_iff_ne, ne_eq,
      State.getD_drawRows_next hb hd hbefore, Nat.lt_succ_iff_lt_or_eq, or_and_right, exists_or, exists_eq_left]

end

/-! ### VF, and the frame of a drawing -/

theorem State.setHit_of_hit (s : State) {hit : Bool} (h : hit = true) : (s.setHit hit).reg regF = 1 := by
  rw [h]
  exact s.reg_setReg_same regF 1

theorem State.setHit_of_no_hit (s : State) {hit : Bool} (h : ¬ hit = true) : s.setHit hit = s :=
  if_neg h

theorem State.setHit_eq (s : State) (hit : Bool) : s.setHit hit = { s with v := (s.setHit hit).v } := by
  cases hit <;> rfl

theorem State.regsKeptBut_setHit (s : State) (hit : Bool) : RegsKeptBut [regF] s (s.setHit hit) := by
  intro r hr
  cases hit
  · rfl
  · exact s.reg_setReg_ne 1 (by simpa using hr)

/-! ### The obligations -/

/-- Settles O45: there is no row to check or to draw, and with none no hit. -/
theorem drawOfNoRowsDoesNothing : Obligations.DrawOfNoRowsDoesNothing :=
  fun _ _ _ => rfl

/-- What a drawing inside memory and the display leaves (R103). -/
structure Drawn (x y : Reg) (n : Nibble) (s t : State) : Prop where
  exec_eq : exec (.drw x y n) s = .next t
  cell : ∀ i, i < n.toNat → t.dispByte (s.rowCell (s.reg x).toNat (s.reg y).toNat i) =
    s.dispByte (s.rowCell (s.reg x).toNat (s.reg y).toNat i) ^^^ s.byteAt (s.indexed i)
  other : ∀ c, (∀ i, i < n.toNat → c ≠ s.rowCell (s.reg x).toNat (s.reg y).toNat i) → t.dispByte c = s.dispByte c
  length : t.disp.length = s.disp.length
  hit : (∃ i, i < n.toNat ∧ s.dispByte (s.rowCell (s.reg x).toNat (s.reg y).toNat i) &&& s.byteAt (s.indexed i) ≠ 0) →
    t.reg regF = 1
  noHit : (¬ ∃ i, i < n.toNat ∧
    s.dispByte (s.rowCell (s.reg x).toNat (s.reg y).toNat i) &&& s.byteAt (s.indexed i) ≠ 0) → t.reg regF = s.reg regF
  regs : RegsKeptBut [regF] s t
  memory : MemoryKept s t
  frame : t = { s with v := t.v, disp := t.disp }

/-- Each drawn row is the only one at its cell, and VF is written on a hit alone. -/
theorem drawn_of_rowsInside {s : State} {x y : Reg} {n : Nibble} (hb : s.build.wellFormed = true)
    (hd : s.disp.length = s.build.displayBytes) (hin : s.RowsInside (s.reg x).toNat (s.reg y).toNat n.toNat) :
    Drawn x y n s (effectOf (.drw x y n) s) := by
  have hhit := State.drawRows_hit_iff hb hd hin
  refine ⟨exec_of_no_fault (drawFault?_none_of_rowsInside hin), fun i hi => ?cell, fun c hc => ?other, ?length,
    fun hmeet => ?hit, fun hnone => ?noHit, State.regsKeptBut_setHit _ _, fun a => ?memory, ?frame⟩
  case cell =>
    rw [effectOf, State.dispByte, State.setHit_disp, State.setDisp_disp, State.getD_drawRows_cell hb hd hin hi]
  case other =>
    rw [effectOf, State.dispByte, State.setHit_disp, State.setDisp_disp, State.getD_drawRows_of_ne hb hd hin hc]
  case length => rw [effectOf, State.setHit_disp, State.setDisp_disp, State.drawRows_length]
  case hit => exact State.setHit_of_hit _ (hhit.2 hmeet)
  case noHit => rw [effectOf, State.setHit_of_no_hit _ (mt hhit.1 hnone), State.setDisp_reg]
  case memory => rw [effectOf, State.setHit_eq]; rfl
  case frame => rw [effectOf, State.setHit_eq]; rfl

/-- Settles O44: the parts of `Drawn`. -/
theorem drawXorsWholeBytes : Obligations.DrawXorsWholeBytes := by
  intro s x y n hb hd hrows
  have h := drawn_of_rowsInside hb hd hrows
  exact ⟨_, h.exec_eq, h.cell, h.other, h.length, h.hit, fun hclear => h.noHit fun ⟨i, hi, hne⟩ => hne (hclear i hi),
    h.regs, h.memory, h.frame⟩

/-- Rows that are inside are checked and passed over. -/
theorem drawFault?_of_rowsInside {s : State} {px py k : Nat} (rows : Nat) (h : s.RowsInside px py k) :
    drawFault? s px py 0 (k + rows) = drawFault? s px py k rows := by
  induction k generalizing rows with
  | zero => rw [Nat.zero_add]
  | succ k ih =>
    obtain ⟨hmem, hpx, hpy⟩ := h k (Nat.lt_succ_self k)
    rw [Nat.add_assoc, Nat.add_comm 1 rows, ih (rows + 1) (h.mono (Nat.le_succ k)), drawFault?,
      if_neg (by simp only [memSize]; omega), if_neg (by omega)]

/-- Settles O46: the check reaches row k, and there looks at the sprite's address before the position. -/
theorem drawOutsideFaultsAtTheFirstRow : Obligations.DrawOutsideFaultsAtTheFirstRow := by
  intro s x y n k hk hbefore
  obtain ⟨rows, hn⟩ : ∃ rows, n.toNat = k + (rows + 1) := ⟨n.toNat - k - 1, by omega⟩
  have hcheck : faultOf (.drw x y n) s = drawFault? s (s.reg x).toNat (s.reg y).toNat k (rows + 1) := by
    rw [← drawFault?_of_rowsInside (rows + 1) hbefore, ← hn]
    rfl
  refine ⟨fun hmem => ?_, fun hmem hdisp => ?_⟩ <;> apply exec_of_fault <;> rw [hcheck, drawFault?]
  · rw [if_pos (show s.indexed k ≥ memSize from hmem)]
  · rw [if_neg (show ¬ s.indexed k ≥ memSize from Nat.not_le.2 hmem), if_pos hdisp]

/-- Displays of one size that read alike are equal. -/
theorem disp_ext {d d' : List Byte} (hlen : d.length = d'.length) (h : ∀ c, d.getD c 0 = d'.getD c 0) : d = d' := by
  refine List.ext_getElem hlen fun c hc hc' => ?_
  rw [← List.getD_eq_getElem d 0 hc, ← List.getD_eq_getElem d' 0 hc', h c]

/-- XORing a byte onto another that it does not meet leaves it to be met. -/
theorem xor_and_self_of_and_eq_zero {d b : Byte} (h : d &&& b = 0) : (d ^^^ b) &&& b = b := by
  have hdist : (d ^^^ b) &&& b = (d &&& b) ^^^ b := by
    ext k hk
    simp only [BitVec.getElem_and, BitVec.getElem_xor]
    cases d[k] <;> cases b[k] <;> rfl
  rw [hdist, h]
  exact BitVec.zero_xor

/-- A second drawing at the same place: with VF no operand, it has the operands, the sprite and the cells of the first. -/
structure DrawnAgain (x y : Reg) (n : Nibble) (s t u : State) : Prop where
  first : Drawn x y n s t
  second : Drawn x y n t u
  cell_eq : ∀ i, t.rowCell (t.reg x).toNat (t.reg y).toNat i = s.rowCell (s.reg x).toNat (s.reg y).toNat i
  sprite_eq : ∀ i, t.byteAt (t.indexed i) = s.byteAt (s.indexed i)

theorem drawnAgain_of_rowsInside {s : State} {x y : Reg} {n : Nibble} (hx : x ≠ regF) (hy : y ≠ regF)
    (hb : s.build.wellFormed = true) (hd : s.disp.length = s.build.displayBytes)
    (hin : s.RowsInside (s.reg x).toNat (s.reg y).toNat n.toNat) : ∃ t u, DrawnAgain x y n s t u := by
  have h := drawn_of_rowsInside hb hd hin
  generalize effectOf (.drw x y n) s = t at h
  have hbuild : t.build = s.build := by rw [h.frame]
  have hindex : t.index = s.index := by rw [h.frame]
  have hxt : t.reg x = s.reg x := h.regs x (by simpa using hx)
  have hyt : t.reg y = s.reg y := h.regs y (by simpa using hy)
  have hin' : t.RowsInside (t.reg x).toNat (t.reg y).toNat n.toNat := by
    intro i hi
    simp only [State.indexed, hbuild, hindex, hxt, hyt]
    exact hin i hi
  refine ⟨t, _, h, drawn_of_rowsInside (hbuild ▸ hb) (by rw [h.length, hbuild, hd]) hin', fun i => ?_, fun i => ?_⟩
  · rw [State.rowCell, State.rowCell, hbuild, hxt, hyt]
  · rw [h.memory, State.indexed, State.indexed, hindex]

namespace DrawnAgain

variable {x y : Reg} {n : Nibble} {s t u : State}

/-- Every drawn cell is XORed twice with one byte. -/
theorem disp_eq (h : DrawnAgain x y n s t u) : u.disp = s.disp := by
  refine disp_ext (h.second.length.trans h.first.length) fun c => ?_
  by_cases hc : ∀ i, i < n.toNat → c ≠ s.rowCell (s.reg x).toNat (s.reg y).toNat i
  · exact (h.second.other c fun i hi => h.cell_eq i ▸ hc i hi).trans (h.first.other c hc)
  · push Not at hc
    obtain ⟨i, hi, rfl⟩ := hc
    have hback := h.second.cell i hi
    rwa [h.cell_eq, h.sprite_eq, h.first.cell i hi, BitVec.xor_assoc, BitVec.xor_self, BitVec.xor_zero] at hback

/-- If the first drawing met no set bit, the second meets every bit that it set. -/
theorem flag_of_set_bit (h : DrawnAgain x y n s t u) (hset : ∃ i, i < n.toNat ∧ s.byteAt (s.indexed i) ≠ 0) :
    u.reg regF = 1 := by
  by_cases hmeet' : ∃ i, i < n.toNat ∧
      t.dispByte (t.rowCell (t.reg x).toNat (t.reg y).toNat i) &&& t.byteAt (t.indexed i) ≠ 0
  · exact h.second.hit hmeet'
  · rw [h.second.noHit hmeet']
    refine h.first.hit (by_contra fun hmeet => hmeet' ?_)
    push Not at hmeet
    obtain ⟨i, hi, hne⟩ := hset
    refine ⟨i, hi, ?_⟩
    rwa [h.cell_eq, h.sprite_eq, h.first.cell i hi, xor_and_self_of_and_eq_zero (hmeet i hi)]

/-- A sprite without a set bit meets none. -/
theorem flag_of_no_set_bit (h : DrawnAgain x y n s t u) (hclear : ∀ i, i < n.toNat → s.byteAt (s.indexed i) = 0) :
    u.reg regF = s.reg regF := by
  rw [h.second.noHit, h.first.noHit]
  · rintro ⟨i, hi, hne⟩
    exact hne (by rw [hclear i hi]; exact BitVec.and_zero)
  · rintro ⟨i, hi, hne⟩
    exact hne (by rw [h.sprite_eq, hclear i hi]; exact BitVec.and_zero)

end DrawnAgain

/-- Settles O47: the second drawing repeats the first on what the first left. -/
theorem drawingTwiceRestoresTheDisplay : Obligations.DrawingTwiceRestoresTheDisplay := by
  intro s x y n hx hy hb hd hrows
  obtain ⟨t, u, h⟩ := drawnAgain_of_rowsInside hx hy hb hd hrows
  exact ⟨t, u, h.first.exec_eq, h.second.exec_eq, h.disp_eq, h.flag_of_set_bit, h.flag_of_no_set_bit⟩

end Sys2Proof.Machine
end

section
/-! ## Key tests (45_keys_timers.md)

The shifted mask as a question about single keys. The obligation O48. -/

namespace Sys2Proof.Machine

/-- A number of 16 or more names no key, and reads as not held. -/
theorem keyHeld_eq (kb : Word) (b : Byte) : keyHeld kb b = kb.getLsbD b.toNat := by
  have hbit : keysFrom kb b &&& 1 = BitVec.setWidth 16 (BitVec.ofBool ((keysFrom kb b).getLsbD 0)) :=
    BitVec.and_one_eq_setWidth_ofBool_getLsbD
  rw [keyHeld, hbit, keysFrom, BitVec.getLsbD_ushiftRight, Nat.add_zero]
  cases kb.getLsbD b.toNat <;> rfl

/-- Bit 0 of the shifted mask is key `b` itself; every other bit is a key above it. -/
theorem getLsbD_keysAbove (kb : Word) (b : Byte) (j : Nat) :
    (keysFrom kb b &&& ~~~1).getLsbD j = (decide (0 < j) && kb.getLsbD (b.toNat + j)) := by
  have hone : (1 : Word).getLsbD j = (decide (0 < 16) && decide (j = 0)) := BitVec.getLsbD_one
  rw [keysFrom, BitVec.getLsbD_and, BitVec.getLsbD_ushiftRight, BitVec.getLsbD_not, hone]
  by_cases hj : b.toNat + j < 16
  · by_cases h0 : 0 < j
    · simp [h0, show j < 16 by omega, show j ≠ 0 by omega]
    · simp [show j = 0 by omega]
  · simp [BitVec.getLsbD_of_ge kb _ (by omega : 16 ≤ b.toNat + j)]

theorem keyAboveHeld_iff (kb : Word) (b : Byte) :
    keyAboveHeld kb b = true ↔ ∃ k, b.toNat < k ∧ k < 16 ∧ kb.getLsbD k = true := by
  rw [keyAboveHeld, bne_iff_ne]
  constructor
  · intro hne
    by_contra hno
    refine hne (BitVec.eq_of_getLsbD_eq fun j _ => ?_)
    refine (getLsbD_keysAbove kb b j).trans (Eq.trans ?_ BitVec.getLsbD_zero.symm)
    by_contra hj
    simp only [Bool.not_eq_false, Bool.and_eq_true, decide_eq_true_eq] at hj
    exact hno ⟨b.toNat + j, by omega, BitVec.lt_of_getLsbD hj.2, hj.2⟩
  · rintro ⟨k, hlt, -, hk⟩ hzero
    have hbit := getLsbD_keysAbove kb b (k - b.toNat)
    rw [Nat.add_sub_cancel' hlt.le, hk, decide_eq_true (Nat.sub_pos_of_lt hlt), hzero] at hbit
    exact Bool.false_ne_true (BitVec.getLsbD_zero.symm.trans hbit)

theorem State.skipIf_pc_of_true (s : State) {c : Bool} (h : c = true) : (s.skipIf c).pc = s.pc + 2 := by
  rw [h]
  rfl

theorem State.skipIf_pc_of_not (s : State) {c : Bool} (h : ¬ c = true) : (s.skipIf c).pc = s.pc := by
  rw [State.skipIf, if_neg h]

/-- Settles O48: each instruction is a `skipIf` on its key test. -/
theorem keyTestsSkip : Obligations.KeyTestsSkip := by
  intro s x
  have hheld : keyHeld s.kb (s.reg x) = true ↔ (s.reg x).toNat < 16 ∧ s.kb.getLsbD (s.reg x).toNat = true := by
    rw [keyHeld_eq]
    exact ⟨fun h => ⟨BitVec.lt_of_getLsbD h, h⟩, And.right⟩
  have habove := keyAboveHeld_iff s.kb (s.reg x)
  refine ⟨⟨s.skipIf (keyHeld s.kb (s.reg x)), rfl, s.onlyPc_skipIf _, fun h => ?held, fun h => ?notHeld⟩,
    ⟨s.skipIf (keyAboveHeld s.kb (s.reg x)), rfl, s.onlyPc_skipIf _, fun h => ?above, fun h => ?noneAbove⟩⟩
  case held => exact s.skipIf_pc_of_true (hheld.2 h)
  case notHeld => exact s.skipIf_pc_of_not (mt hheld.1 h)
  case above => exact s.skipIf_pc_of_true (habove.2 h)
  case noneAbove =>
    refine s.skipIf_pc_of_not (mt habove.1 ?_)
    rintro ⟨k, hlt, h16, hk⟩
    exact Bool.false_ne_true ((h k hlt h16).symm.trans hk)

end Sys2Proof.Machine
end

section
/-! ## The driver's operations (50_interface.md)

Loads, key events and reads, each by itself and in sequences. The obligations O54 to O58. -/

namespace Sys2Proof.Machine

/-! ### Loads -/

theorem Session.drive_load_of_fits {d : Session} {image : List Byte} (hopen : d.mayLoad = true)
    (hlen : image.length ≤ 3584) :
    d.drive (.load image) = some ⟨d.core.writeImage 0x200 image, false⟩ ∧ d.reply (.load image) = .loadReport true := by
  rcases State.load_eq d.core image with ⟨-, hload⟩ | ⟨hlong, -⟩
  · simp [Session.drive, Session.reply, hopen, hload]
  · omega

theorem Session.drive_load_of_too_long {d : Session} {image : List Byte} (hopen : d.mayLoad = true)
    (hlen : 3584 < image.length) :
    d.drive (.load image) = some d ∧ d.reply (.load image) = .loadReport false := by
  rcases State.load_eq d.core image with ⟨hshort, -⟩ | ⟨-, hload⟩
  · omega
  · simp [Session.drive, Session.reply, hopen, hload]

/-- Settles O54: an image that fits is written from 0x200 on, and a longer one is not. -/
theorem loadPlacesTheImage : Obligations.LoadPlacesTheImage := by
  refine ⟨fun d image hopen hlen => ?fits, fun d image hopen hlen => Session.drive_load_of_too_long hopen hlen⟩
  case fits =>
    obtain ⟨hdrive, hreply⟩ := Session.drive_load_of_fits hopen hlen
    have heq := d.core.writeImage_eq 0x200 image
    exact ⟨_, hdrive, hreply, State.byteAt_writeImage_inside image d.core 0x200,
      State.byteAt_writeImage_outside image d.core 0x200, fun r _ => State.reg_congr (congrArg State.v heq) r, heq⟩

/-- While no load is open, an operation but a reset is no load and opens none. -/
theorem Session.closed_of_drive {d e : Session} {op : DriverOp} (hclosed : d.mayLoad = false) (hop : op ≠ .reset)
    (h : d.drive op = some e) : e.mayLoad = false ∧ ∀ image, op ≠ .load image := by
  rcases Session.drive_cases h with ⟨rfl, rfl⟩ | ⟨rfl, -⟩ | ⟨image, -, hopen, -⟩ | ⟨⟨k, rfl | rfl⟩, kb, rfl⟩ |
    ⟨rfl | rfl | rfl, rfl⟩
  · exact ⟨rfl, nofun⟩
  · exact absurd rfl hop
  · exact absurd (hclosed.symm.trans hopen) nofun
  all_goals exact ⟨hclosed, nofun⟩

theorem Session.closed_of_driveAll (ops : List DriverOp) {d e : Session} (hclosed : d.mayLoad = false)
    (hops : .reset ∉ ops) (h : d.driveAll ops = some e) : e.mayLoad = false ∧ ∀ image, .load image ∉ ops := by
  induction ops generalizing d with
  | nil => exact ⟨Option.some.inj h ▸ hclosed, fun _ => List.not_mem_nil⟩
  | cons op rest ih =>
    obtain ⟨m, hm, hrest⟩ := Session.driveAll_cons.1 h
    obtain ⟨hmclosed, hload⟩ := Session.closed_of_drive hclosed (fun hop => hops (hop ▸ .head _)) hm
    obtain ⟨heclosed, hloads⟩ := ih hmclosed (fun hmem => hops (.tail _ hmem)) hrest
    refine ⟨heclosed, fun image hmem => ?_⟩
    rcases List.mem_cons.1 hmem with hhead | htail
    · exact hload image hhead.symm
    · exact hloads image htail

/-- Settles O55: a load that can be driven was open, and one that fits closes it; the rest is by induction on the
sequence. -/
theorem loadIsOpenOnlyBeforeTheFirstStep : Obligations.LoadIsOpenOnlyBeforeTheFirstStep := by
  refine ⟨fun d e h => ?step, fun d e image hlen h => ?load, fun ops d e => Session.closed_of_driveAll ops⟩
  case step => exact (Option.some.inj h) ▸ rfl
  case load =>
    cases hopen : d.mayLoad with
    | true => exact Option.some.inj ((Session.drive_load_of_fits hopen hlen).1.symm.trans h) ▸ rfl
    | false => exact (Session.closed_of_drive (op := .load image) hopen nofun h).1

/-! ### What the driver writes -/

/-- Settles O56: of the operations but step and reset, a load writes memory, a key event the keyboard, a read nothing. -/
theorem driverWritesOnlyKeysAndImage : Obligations.DriverWritesOnlyKeysAndImage := by
  intro d e op h hstep hreset
  rcases Session.drive_cases h with ⟨rfl, -⟩ | ⟨rfl, -⟩ | ⟨image, rfl, hopen, ⟨-, rfl⟩ | ⟨-, rfl⟩⟩ | ⟨hkey, kb, rfl⟩ |
    ⟨-, rfl⟩
  · exact absurd rfl hstep
  · exact absurd rfl hreset
  · obtain ⟨m, hm⟩ : ∃ m, d.core.writeImage 0x200 image = { d.core with mem := m } := ⟨_, State.writeImage_eq _ _ _⟩
    rw [hm]
    exact ⟨rfl, absurd rfl, fun _ => ⟨hopen, image, rfl⟩, nofun⟩
  · exact ⟨rfl, absurd rfl, absurd rfl, fun _ => rfl⟩
  · refine ⟨rfl, fun _ => hkey, absurd rfl, ?_⟩
    obtain ⟨k, rfl | rfl⟩ := hkey <;> exact nofun
  · exact ⟨rfl, absurd rfl, absurd rfl, fun _ => rfl⟩

/-- Settles O57: each read returns a field or a record of fields. -/
theorem readsReturnTheValues : Obligations.ReadsReturnTheValues :=
  fun _ => ⟨rfl, rfl, rfl, rfl, rfl, rfl⟩

/-! ### Key events -/

/-- The mask of key `k` alone. -/
theorem getLsbD_keyBit (k : Nat) {j : Nat} (hj : j < 16) : ((1 : Word) <<< k).getLsbD j = decide (j = k) := by
  have hone : (1 : Word).getLsbD (j - k) = (decide (0 < 16) && decide (j - k = 0)) := BitVec.getLsbD_one
  rw [BitVec.getLsbD_shiftLeft, hone]
  by_cases hk : j = k
  · simp [hk, hk ▸ hj]
  · by_cases hlt : j < k
    · simp [hlt, hk]
    · simp [hk, show j - k ≠ 0 by omega]

theorem getLsbD_keyPress (s : State) {k j : Nat} (hk : k < 16) (hj : j < 16) :
    (s.keyPress k).kb.getLsbD j = if j = k then true else s.kb.getLsbD j := by
  rw [State.keyPress, if_pos hk]
  change (s.kb ||| (1 : Word) <<< k).getLsbD j = _
  rw [BitVec.getLsbD_or, getLsbD_keyBit k hj]
  by_cases hjk : j = k <;> simp [hjk]

theorem getLsbD_keyRelease (s : State) {k j : Nat} (hk : k < 16) (hj : j < 16) :
    (s.keyRelease k).kb.getLsbD j = if j = k then false else s.kb.getLsbD j := by
  rw [State.keyRelease, if_pos hk]
  change (s.kb &&& ~~~((1 : Word) <<< k)).getLsbD j = _
  rw [BitVec.getLsbD_and, BitVec.getLsbD_not, getLsbD_keyBit k hj, decide_eq_true hj]
  by_cases hjk : j = k <;> simp [hjk]

theorem State.keyPress_of_ge (s : State) {k : Nat} (hk : 16 ≤ k) : s.keyPress k = s :=
  if_neg (Nat.not_lt.2 hk)

theorem State.keyRelease_of_ge (s : State) {k : Nat} (hk : 16 ≤ k) : s.keyRelease k = s :=
  if_neg (Nat.not_lt.2 hk)

/-- A press and a release of key `k` leave it not held and every other key as it was. -/
theorem keyRelease_keyPress_kb_eq_iff (s : State) {k : Nat} (hk : k < 16) :
    ((s.keyPress k).keyRelease k).kb = s.kb ↔ s.kb.getLsbD k = false := by
  have hbit {j : Nat} (hj : j < 16) :
      ((s.keyPress k).keyRelease k).kb.getLsbD j = if j = k then false else s.kb.getLsbD j := by
    rw [getLsbD_keyRelease _ hk hj, getLsbD_keyPress s hk hj]
    split <;> rfl
  constructor
  · intro heq
    rw [← heq, hbit hk, if_pos rfl]
  · intro hfree
    refine BitVec.eq_of_getLsbD_eq fun j hj => ?_
    rw [hbit hj]
    split
    · next hjk => rw [hjk, hfree]
    · rfl

/-- Settles O58: a key event is one bit operation on the keyboard, or nothing. -/
theorem keyEventsSetAndClear : Obligations.KeyEventsSetAndClear := by
  intro d k
  refine ⟨{ d with core := d.core.keyPress k }, { d with core := d.core.keyRelease k },
    { d with core := (d.core.keyPress k).keyRelease k }, rfl, rfl, rfl, fun hk => ⟨?_, ?_⟩, fun hk => ⟨fun j hj => ?_,
    fun j hj => ?_, ?_⟩, ?_, ?_⟩
  · rw [State.keyPress_of_ge _ hk]
  · rw [State.keyRelease_of_ge _ hk]
  · exact getLsbD_keyPress d.core hk hj
  · exact getLsbD_keyRelease d.core hk hj
  · exact keyRelease_keyPress_kb_eq_iff d.core hk
  · exact congrArg (fun s : State => { d with core := s }) (State.keyPress_eq d.core k)
  · exact congrArg (fun s : State => { d with core := s }) (State.keyRelease_eq d.core k)

end Sys2Proof.Machine
end
